-- ==== Sys2Proof/Word.lean ====
section
/-! DEFINITION. The two data widths of the block (spec 00_scope.md R6, R7) and how a 32-bit pattern is read as a number. -/

namespace Sys2Proof

/-- A byte, "an unsigned 8-bit value 0..255" (R7). -/
abbrev Byte := BitVec 8

/-- A register value, `XLEN = 32` bits (R6). -/
abbrev Word := BitVec 32

/-- `uint32(v)` (R7). -/
abbrev uint32 (v : Word) : Nat := v.toNat

/-- `sint32(v)`, two's complement (R7). -/
abbrev sint32 (v : Word) : Int := v.toInt

end Sys2Proof
end

