-- ==== Sys2Proof/Config.lean ====
section
/-! DEFINITION. What is fixed for the machine: the constants of the spec, the values this model names where the spec
leaves one open, and the free values (constants with no body, so that no proof can see what they are). -/

namespace Sys2Proof

/-- The number of byte addresses of the data memory, `2^AW` (00_scope.md R6, 20_memory.md R50). -/
def Config.addressLimit : Nat := 2 ^ 32

/-- The size in bytes of the register window (R6, R50). -/
def Config.windowSize : Nat := 0x20

/-- The overhead value of a full block, and the counter value that closes one (R6, R143). -/
def Config.fullCode : Byte := 0xFF#8

/-- `REG_BASE` in `State.reset`. DESIGN CHOICE (log 4): the spec leaves it OPEN (R50, I16). -/
def Config.defaultRegBase : Nat := 0x40000000

/-- What a byte of memory that nothing has written reads as. DESIGN CHOICE (log 5): the spec leaves the contents of
memory after reset to the platform (R260, I19). -/
def Config.unwrittenByte : Byte := 0x00#8

/-- FREE VALUE (log 6). The unspecified byte values of R191, R228 and R261, "a model draws each, under no law"; the argument
is the number of the draw. -/
opaque Config.freeByte : Nat → Byte

/-- FREE VALUE (log 7). Whether a BusError reports READ (true) or WRITE (false) when accesses of both kinds fail:
"a model draws it from the two" (R228, I11). -/
opaque Config.freeBusReason : Nat → Bool

end Sys2Proof
end

