-- ==== Sys2Proof/Syntax.lean ====
section
/-! DEFINITION. The instructions of the block, one constructor per row of spec/opcode_table.json, and the forms in which
they reach it (30_encoding.md R80 to R92). -/

namespace Sys2Proof

/-- The direction of a host access (R80). -/
inductive Dir where
  | write
  | read
  deriving DecidableEq, Repr

/-- The width of a host access. Only 32 bits is an access the block performs (R110). -/
inductive Width where
  | w8
  | w16
  | w32
  | w64
  deriving DecidableEq, Repr

/-- The eight 32-bit slots of the register window (R81). -/
inductive Slot where
  | src
  | dst
  | len
  | ctrl
  | status
  | result
  | rsvd18
  | rsvd1C
  deriving DecidableEq, Repr

/-- The two reserved offsets (R28, R81). -/
inductive ReservedOffset where
  | x18
  | x1C
  deriving DecidableEq, Repr

/-- The two reserved values of the OP field (R82): `0b10` and `0b11`. -/
inductive ReservedOp where
  | op10
  | op11
  deriving DecidableEq, Repr

/-- Why a command word is rejected, the REASON codes of ERR = BAD_COMMAND (R87). -/
inductive BadReason where
  | reservedOp
  | reservedBits
  deriving DecidableEq, Repr

/-- What a CTRL word selects, the results of `DecodeCtrl` (R84). -/
inductive Command where
  | nop
  | encode
  | decode
  | badcmd (reason : BadReason)
  deriving DecidableEq, Repr

/-- The instructions: the five commands of format `ctrl` and the fourteen accesses of format `mmio` (R92). A constructor
carries every bit of its word that the row leaves free. -/
inductive Instr where
  /-- ENCODE (41_encode.md R140). -/
  | encode
  /-- DECODE (42_decode.md R180). -/
  | decode
  /-- NOP: `w[0] = 0`; the ignored bits `w[31:1]` (40_register_access.md R115). -/
  | nop (ignored : BitVec 31)
  /-- BADCMD_OP: reserved OP (R116). -/
  | badcmdOp (op : ReservedOp)
  /-- BADCMD_BITS: `w[31:3]`, which is not zero, and `w[2:1]`, any value (R116). -/
  | badcmdBits (rsvd : BitVec 29) (op : BitVec 2)
  /-- WR_SRC (R111). -/
  | wrSrc (v : Word)
  /-- WR_DST (R112). -/
  | wrDst (v : Word)
  /-- WR_LEN (R113). -/
  | wrLen (v : Word)
  /-- WR_CTRL, the command write (R114). -/
  | wrCtrl (w : Word)
  /-- WR_STATUS, ignored (R117). -/
  | wrStatus (v : Word)
  /-- WR_RESULT, ignored (R118). -/
  | wrResult (v : Word)
  /-- WR_RSVD, ignored (R119). -/
  | wrRsvd (off : ReservedOffset) (v : Word)
  /-- RD_SRC (R120). -/
  | rdSrc
  /-- RD_DST (R121). -/
  | rdDst
  /-- RD_LEN (R122). -/
  | rdLen
  /-- RD_CTRL (R123). -/
  | rdCtrl
  /-- RD_STATUS (R124). -/
  | rdStatus
  /-- RD_RESULT (R125). -/
  | rdResult
  /-- RD_RSVD (R126). -/
  | rdRsvd (off : ReservedOffset)
  deriving DecidableEq, Repr

/-- A host access to the register window, format `mmio` (R80): a byte offset in the 0x20-byte window, a width, and a data
word that matters for a write only. -/
structure Access where
  dir   : Dir
  off   : BitVec 5
  width : Width
  data  : Word
  deriving DecidableEq, Repr

/-- An instruction's words in one of the block's two formats (R80). -/
inductive Encoding where
  | ctrl (w : Word)
  | mmio (a : Access)
  deriving DecidableEq, Repr

/-- A host access as the platform bus carries it: at a host byte address (R50). -/
structure BusAccess where
  dir   : Dir
  addr  : Nat
  width : Width
  data  : Word
  deriving DecidableEq, Repr

end Sys2Proof
end

