-- ==== Sys2Proof/WellFormed.lean ====
section
/-! DEFINITION. Which terms of `Instr` stand for words of the encoding tables. -/

namespace Sys2Proof

/-- The one check: BADCMD_BITS has `w[31:3] ≠ 0` (30_encoding.md R83); with those bits zero the word is another
row's. Every other constructor's fields range over exactly its row's words. -/
def Instr.wellFormed : Instr → Bool
  | .encode => true
  | .decode => true
  | .nop _ => true
  | .badcmdOp _ => true
  | .badcmdBits rsvd _ => rsvd != 0#29
  | .wrSrc _ => true
  | .wrDst _ => true
  | .wrLen _ => true
  | .wrCtrl _ => true
  | .wrStatus _ => true
  | .wrResult _ => true
  | .wrRsvd _ _ => true
  | .rdSrc => true
  | .rdDst => true
  | .rdLen => true
  | .rdCtrl => true
  | .rdStatus => true
  | .rdResult => true
  | .rdRsvd _ => true

end Sys2Proof
end

