-- ==== Sys2Proof/Decode.lean ====
section
/-! DEFINITION. From the words of the two formats to instructions and back (30_encoding.md R80 to R92, 40_register_access.md
R110). The decoder is total and rejects by name; the encoder is written from the same tables. -/

namespace Sys2Proof

/-- Why something is not an instruction. `accessSize` is the spec's `UNDEFINED(access size)` (R110); `byteCount` is about
the model's own byte form only: neither four nor five bytes (log 13). -/
inductive DecodeError where
  | accessSize
  | byteCount
  deriving DecidableEq, Repr

/-! ## The register map (R81) -/

/-- The byte offset of a slot. -/
def Slot.offset : Slot → BitVec 5
  | .src => 0x00#5
  | .dst => 0x04#5
  | .len => 0x08#5
  | .ctrl => 0x0C#5
  | .status => 0x10#5
  | .result => 0x14#5
  | .rsvd18 => 0x18#5
  | .rsvd1C => 0x1C#5

/-- The slot at a byte offset, none where the offset is not a multiple of 4. -/
def slotAt (off : BitVec 5) : Option Slot :=
  if off = 0x00#5 then some .src
  else if off = 0x04#5 then some .dst
  else if off = 0x08#5 then some .len
  else if off = 0x0C#5 then some .ctrl
  else if off = 0x10#5 then some .status
  else if off = 0x14#5 then some .result
  else if off = 0x18#5 then some .rsvd18
  else if off = 0x1C#5 then some .rsvd1C
  else none

/-! ## Decoding -/

/-- The write of `v` to a slot (R111 to R119). -/
def writeInstr (v : Word) : Slot → Instr
  | .src => .wrSrc v
  | .dst => .wrDst v
  | .len => .wrLen v
  | .ctrl => .wrCtrl v
  | .status => .wrStatus v
  | .result => .wrResult v
  | .rsvd18 => .wrRsvd .x18 v
  | .rsvd1C => .wrRsvd .x1C v

/-- The read of a slot (R120 to R126). -/
def readInstr : Slot → Instr
  | .src => .rdSrc
  | .dst => .rdDst
  | .len => .rdLen
  | .ctrl => .rdCtrl
  | .status => .rdStatus
  | .result => .rdResult
  | .rsvd18 => .rdRsvd .x18
  | .rsvd1C => .rdRsvd .x1C

/-- Format `mmio`: an access that is not 32 bits wide, or not at a multiple of 4, is `UNDEFINED(access size)` (R110). -/
def decodeMmio (a : Access) : Except DecodeError Instr :=
  match a.width, slotAt a.off with
  | .w32, some slot =>
    match a.dir with
    | .write => .ok (writeInstr a.data slot)
    | .read => .ok (readInstr slot)
  | _, _ => .error .accessSize

/-- `DecodeCtrl(w)` (R84), its tests in the spec's order. -/
def decodeCommand (w : Word) : Command :=
  if w.extractLsb' 0 1 = 0#1 then .nop
  else if w.extractLsb' 3 29 ≠ 0#29 then .badcmd .reservedBits
  else if w.extractLsb' 1 2 = 0b00#2 then .encode
  else if w.extractLsb' 1 2 = 0b01#2 then .decode
  else .badcmd .reservedOp

/-- Format `ctrl`: the table row of a command word, with the bits the row leaves free. -/
def decodeCtrl (w : Word) : Instr :=
  match decodeCommand w with
  | .nop => .nop (w.extractLsb' 1 31)
  | .encode => .encode
  | .decode => .decode
  | .badcmd .reservedBits => .badcmdBits (w.extractLsb' 3 29) (w.extractLsb' 1 2)
  | .badcmd .reservedOp => .badcmdOp (if w.extractLsb' 1 2 = 0b10#2 then .op10 else .op11)

/-- The instruction of an encoding. -/
def decode : Encoding → Except DecodeError Instr
  | .ctrl w => .ok (decodeCtrl w)
  | .mmio a => decodeMmio a

/-! ## The bytes of an encoding

The spec gives no byte form to an access. This one is the model's (log 13): a `ctrl` word is its four bytes; an `mmio` access
is one byte (offset in [4:0], direction in [5], width in [7:6]) and the four bytes of its data word. Words are laid out in
the little-endian byte lanes of 20_memory.md R52. -/

/-- Byte lanes 0 to 3 of a word: lane `k` carries bits `[8k+7:8k]` (R52). -/
def wordBytes (w : Word) : List Byte :=
  [w.extractLsb' 0 8, w.extractLsb' 8 8, w.extractLsb' 16 8, w.extractLsb' 24 8]

/-- The word whose byte lanes are these. -/
def bytesWord (b0 b1 b2 b3 : Byte) : Word :=
  b3 ++ (b2 ++ (b1 ++ b0))

/-- The direction bit of the model's `mmio` byte (log 13). -/
def dirBit : Dir → BitVec 1
  | .write => 0#1
  | .read => 1#1

/-- The width field of the model's `mmio` byte (log 13). -/
def widthBits : Width → BitVec 2
  | .w32 => 0b00#2
  | .w8 => 0b01#2
  | .w16 => 0b10#2
  | .w64 => 0b11#2

/-- The direction of a direction bit. -/
def dirOf (b : BitVec 1) : Dir :=
  if b = 0#1 then .write else .read

/-- The width of a width field. -/
def widthOf (b : BitVec 2) : Width :=
  if b = 0b00#2 then .w32
  else if b = 0b01#2 then .w8
  else if b = 0b10#2 then .w16
  else .w64

/-- The first byte of an `mmio` access. -/
def accessByte (a : Access) : Byte :=
  widthBits a.width ++ (dirBit a.dir ++ a.off)

/-- The access of a first byte and a data word. -/
def accessOf (h : Byte) (data : Word) : Access where
  dir := dirOf (h.extractLsb' 5 1)
  off := h.extractLsb' 0 5
  width := widthOf (h.extractLsb' 6 2)
  data := data

/-- The bytes of an encoding. -/
def encodingBytes : Encoding → List Byte
  | .ctrl w => wordBytes w
  | .mmio a => accessByte a :: wordBytes a.data

/-- The decoder on bytes. -/
def decodeBytes : List Byte → Except DecodeError Instr
  | [b0, b1, b2, b3] => decode (.ctrl (bytesWord b0 b1 b2 b3))
  | [h, b0, b1, b2, b3] => decode (.mmio (accessOf h (bytesWord b0 b1 b2 b3)))
  | _ => .error .byteCount

/-! ## The access on the platform bus -/

/-- How many bytes an access of a width covers. -/
def Width.bytes : Width → Nat
  | .w8 => 1
  | .w16 => 2
  | .w32 => 4
  | .w64 => 8

/-- What a bus access is to a block whose window lies at a base address. -/
inductive BusDecode where
  | notOurs
  | rejected (e : DecodeError)
  | instr (i : Instr)
  deriving DecidableEq, Repr

/-- An access that touches no byte of the window is not an access to this block (R110). One that does is decoded at its
offset; one that starts below the window and reaches into it is rejected as `UNDEFINED(access size)` (log 9). -/
def decodeBus (base : Nat) (b : BusAccess) : BusDecode :=
  if b.addr + b.width.bytes ≤ base ∨ base + Config.windowSize ≤ b.addr then .notOurs
  else if b.addr < base then .rejected .accessSize
  else
    match decodeMmio
        { dir := b.dir, off := BitVec.ofNat 5 (b.addr - base), width := b.width, data := b.data } with
    | .ok i => .instr i
    | .error e => .rejected e

/-! ## Encoding -/

/-- The offset of a reserved slot (R81). -/
def ReservedOffset.slot : ReservedOffset → Slot
  | .x18 => .rsvd18
  | .x1C => .rsvd1C

/-- A 32-bit write to a slot, format `mmio`. -/
def writeAccess (slot : Slot) (v : Word) : Encoding :=
  .mmio { dir := .write, off := slot.offset, width := .w32, data := v }

/-- A 32-bit read of a slot, format `mmio`. -/
def readAccess (slot : Slot) : Encoding :=
  .mmio { dir := .read, off := slot.offset, width := .w32, data := 0x00000000#32 }

/-- The encoding of an instruction (R81 to R83). -/
def encode : Instr → Encoding
  | .encode => .ctrl 0x00000001#32
  | .decode => .ctrl 0x00000003#32
  | .nop ignored => .ctrl (ignored ++ 0#1)
  | .badcmdOp .op10 => .ctrl 0x00000005#32
  | .badcmdOp .op11 => .ctrl 0x00000007#32
  | .badcmdBits rsvd op => .ctrl (rsvd ++ (op ++ 1#1))
  | .wrSrc v => writeAccess .src v
  | .wrDst v => writeAccess .dst v
  | .wrLen v => writeAccess .len v
  | .wrCtrl w => writeAccess .ctrl w
  | .wrStatus v => writeAccess .status v
  | .wrResult v => writeAccess .result v
  | .wrRsvd off v => writeAccess off.slot v
  | .rdSrc => readAccess .src
  | .rdDst => readAccess .dst
  | .rdLen => readAccess .len
  | .rdCtrl => readAccess .ctrl
  | .rdStatus => readAccess .status
  | .rdResult => readAccess .result
  | .rdRsvd off => readAccess off.slot

/-- The bytes of an instruction. -/
def encodeBytes (i : Instr) : List Byte :=
  encodingBytes (encode i)

/-- The bus access that carries an encoding to a block at a base address: a `ctrl` word travels as the data word of a write
to CTRL (R80). -/
def busAccess (base : Nat) : Encoding → BusAccess
  | .ctrl w => { dir := .write, addr := base + Slot.ctrl.offset.toNat, width := .w32, data := w }
  | .mmio a => { dir := a.dir, addr := base + a.off.toNat, width := a.width, data := a.data }

/-! ## The words of the opcode table -/

/-- The encoding that a word of the table's numbering stands for (log 13): up to 8 bits, an `mmio` row (offset and the
model's direction and width bits, data word zero); up to 32 bits, a `ctrl` word; up to 40 bits, an `mmio` access with its data
word; more, none. -/
def tableEncoding (nbits w : Nat) : Option Encoding :=
  if nbits ≤ 8 then some (.mmio (accessOf (BitVec.ofNat 8 w) 0x00000000#32))
  else if nbits ≤ 32 then some (.ctrl (BitVec.ofNat 32 w))
  else if nbits ≤ 40 then some (.mmio (accessOf (BitVec.ofNat 8 w) (BitVec.ofNat 32 (w / 2 ^ 8))))
  else none

/-- The instruction the decoder reads from a table word laid out in bytes, none where it refuses. -/
def decodeTableWord (nbits w : Nat) : Option Instr :=
  match tableEncoding nbits w with
  | none => none
  | some e =>
    match decodeBytes (encodingBytes e) with
    | .ok i => some i
    | .error _ => none

end Sys2Proof
end

