-- ==== Sys2Proof/Machine/State.lean ====
section
/-! DEFINITION. The state of one block as plain data (10_state.md R20), the events that reach it, the ways a step can stop,
and the state after reset (70_reset_and_hazards.md R260). -/

namespace Sys2Proof.Machine

/-! ## Ways to stop -/

/-- The spec's `UNDEFINED(...)` of a command: "a model treats the command as a fault". Each is safe: nothing can be proved of
what the hardware does then. -/
inductive Fault where
  /-- Raised by ENCODE and DECODE when a region runs past 0xFFFFFFFF (20_memory.md R58). Safe. -/
  | addressWrap
  /-- Raised by ENCODE and DECODE when a region meets the block's own window or a device (R60). Safe. -/
  | sideEffectingRegion
  /-- Raised by ENCODE and DECODE when the read and the write region meet (R61). Safe. -/
  | overlap
  /-- Raised by ENCODE and DECODE when another agent writes the read region, or reads or writes the write region, while the
  command runs (R64). Safe. -/
  | concurrentAccess
  deriving DecidableEq, Repr

/-- What the model refuses, by name. -/
inductive Refusal where
  /-- Raised by `exec`'s refused arms only, for an instruction that has no meaning yet (there is none). Safe. -/
  | notModelled (mnemonic : String)
  /-- Raised by a step, for an access to a block's window, by the host or another agent, that is not an aligned 32-bit word:
  `UNDEFINED(access size)`, "a model refuses such an access" (40_register_access.md R110, 30_encoding.md R89). Safe. -/
  | accessSize
  /-- Raised by a step, for a store of an agent outside the block to an address of a device (log 11): the spec does not say
  what that device does. Safe. -/
  | deviceStore
  deriving DecidableEq, Repr

/-! ## The parts of the state -/

/-- The registers of one block (R20, R22 to R27). CTRL and the reserved offsets have no storage (R25, R28). -/
structure Regs where
  src    : Word
  dst    : Word
  len    : Word
  status : Word
  result : Word
  deriving DecidableEq, Repr

/-- The bytes that differ from `Config.unwrittenByte`, addresses strictly rising (R32, R50). -/
abbrev Memory := List Host.Cell

/-- A run of byte addresses `[base, base + size)`. -/
structure Region where
  base : Nat
  size : Nat
  deriving DecidableEq, Repr

/-- The kind of an engine access, the second argument of `busOk` (R55, R56). -/
inductive AccessKind where
  | read
  | write
  deriving DecidableEq, Repr

/-- The platform's parameters (00_scope.md R6), which no step changes: where the register window lies, which engine accesses
it refuses, and which addresses are devices (log 4). -/
structure Platform where
  regBase     : Nat
  readErrors  : List Region
  writeErrors : List Region
  devices     : List Region
  deriving DecidableEq, Repr

/-- What an agent other than the engine does to one byte (R64; log 10). -/
inductive AgentAccess where
  | read (addr : Word)
  | write (addr : Word) (value : Byte)
  deriving DecidableEq, Repr

/-- What reaches the block from outside. -/
inductive HostEvent where
  /-- A host access, and what other agents do to memory while it is in progress. -/
  | access (a : BusAccess) (others : List AgentAccess)
  /-- A store to data memory between accesses, by the host or another agent (`ST8`, 95_test_vectors.md). -/
  | store (addr : Word) (value : Byte)
  /-- A reset between accesses (70_reset_and_hazards.md R260). -/
  | reset
  /-- A reset asserted while a host access is in progress (R261). -/
  | resetDuring (a : BusAccess) (others : List AgentAccess)
  deriving DecidableEq, Repr

/-- The state. `regs` and `mem` are the spec's; `plat` holds its OPEN parameters; `inbox`, `reply`, `concurrent` and `draws`
are the model's own (INVENTORY.md). -/
structure State where
  regs       : Regs
  mem        : Memory
  plat       : Platform
  inbox      : List HostEvent
  reply      : Option Word
  concurrent : List AgentAccess
  draws      : Nat
  deriving DecidableEq, Repr

/-! ## Reset -/

/-- The registers after reset (R260). -/
def Regs.reset : Regs where
  src := 0x00000000#32
  dst := 0x00000000#32
  len := 0x00000000#32
  status := 0x00000000#32
  result := 0x00000000#32

/-- The parameters of the platform of `State.reset` (log 4): `busOk` is true everywhere, as R6 says of the default model. -/
def Platform.default : Platform where
  regBase := Config.defaultRegBase
  readErrors := []
  writeErrors := []
  devices := []

/-- The machine right after reset (R260), with nothing in memory (log 5) and no access waiting (log 1). -/
def State.reset : State where
  regs := Regs.reset
  mem := []
  plat := Platform.default
  inbox := []
  reply := none
  concurrent := []
  draws := 0

/-! ## Outcomes -/

/-- The outcome of one machine step or of one meaning. -/
abbrev Result := Host.Outcome State Fault Refusal

end Sys2Proof.Machine
end

