-- ==== Sys2Proof/Machine/Flags.lean ====
section
/-! DEFINITION. The STATUS word: the outcomes a command can have and the codes they leave in ERR, REASON and DONE
(30_encoding.md R85 to R87, 60_exceptions.md R221). -/

namespace Sys2Proof.Machine

/-- The causes of InvalidArguments (60_exceptions.md R222). -/
inductive ArgReason where
  | dstUnset
  | srcUnset
  | srcIsDst
  | lenNotPositive
  deriving DecidableEq, Repr

/-- The causes of MalformedStream (42_decode.md R181, R183). -/
inductive MalformedReason where
  | zeroOverhead
  | zeroLiteral
  deriving DecidableEq, Repr

/-- How a command can end, the rows of R221. -/
inductive Completion where
  | success
  | invalidArguments (reason : ArgReason)
  | malformedStream (reason : MalformedReason)
  | busError (kind : AccessKind)
  | badCommand (reason : BadReason)
  deriving DecidableEq, Repr

/-- The ERR code (R86). -/
def Completion.err : Completion → BitVec 4
  | .success => 0#4
  | .invalidArguments _ => 1#4
  | .malformedStream _ => 2#4
  | .busError _ => 3#4
  | .badCommand _ => 4#4

/-- The REASON code (R87). -/
def Completion.reason : Completion → BitVec 4
  | .success => 0#4
  | .invalidArguments .dstUnset => 1#4
  | .invalidArguments .srcUnset => 2#4
  | .invalidArguments .srcIsDst => 3#4
  | .invalidArguments .lenNotPositive => 4#4
  | .malformedStream .zeroOverhead => 1#4
  | .malformedStream .zeroLiteral => 2#4
  | .busError .read => 1#4
  | .busError .write => 2#4
  | .badCommand .reservedOp => 1#4
  | .badCommand .reservedBits => 2#4

/-- A STATUS word from its fields: DONE in bit 8, REASON in [7:4], ERR in [3:0], the rest zero (R85). -/
def assembleStatus (done : BitVec 1) (reason err : BitVec 4) : Word :=
  (done.zeroExtend 32 <<< 8) ||| (reason.zeroExtend 32 <<< 4) ||| err.zeroExtend 32

/-- The STATUS word a completed command leaves, DONE = 1 (R85, R225). -/
def Completion.status (c : Completion) : Word :=
  assembleStatus 1#1 c.reason c.err

/-- The ERR field of a STATUS word (R26). -/
def statusErr (w : Word) : BitVec 4 :=
  w.extractLsb' 0 4

/-- The REASON field of a STATUS word (R26). -/
def statusReason (w : Word) : BitVec 4 :=
  w.extractLsb' 4 4

/-- The DONE field of a STATUS word (R26). -/
def statusDone (w : Word) : BitVec 1 :=
  w.extractLsb' 8 1

/-- The reserved bits [31:9] of a STATUS word (R26). -/
def statusRest (w : Word) : BitVec 23 :=
  w.extractLsb' 9 23

end Sys2Proof.Machine
end

