-- ==== Sys2Proof/Machine/Operands.lean ====
section
/-! DEFINITION. The operands of a command (30_encoding.md R88) and the check of its arguments (60_exceptions.md R223). -/

namespace Sys2Proof.Machine

/-- The operands of ENCODE and DECODE: two byte addresses and a signed count. -/
structure Operands where
  src : Nat
  dst : Nat
  n   : Int
  deriving DecidableEq, Repr

/-- Operand assembly, "read once when the CTRL write is decoded" (R88). -/
def operands (s : State) : Operands where
  src := uint32 s.regs.src
  dst := uint32 s.regs.dst
  n := sint32 s.regs.len

/-- `CheckArgs(src, dst, n)` (R223): the first cause that holds, none for OK. -/
def checkArgs (o : Operands) : Option ArgReason :=
  if o.dst = 0 then some .dstUnset
  else if o.src = 0 then some .srcUnset
  else if o.src = o.dst then some .srcIsDst
  else if o.n ≤ 0 then some .lenNotPositive
  else none

/-- The number of source bytes of a command whose arguments are valid. -/
def Operands.count (o : Operands) : Nat :=
  o.n.toNat

end Sys2Proof.Machine
end

