-- ==== Sys2Proof/Machine/Ops.lean ====
section
/-! DEFINITION. The named operations over memory and registers that the meanings share: reading and writing memory, the
register window, ending a command (`finish`, the block's whole "trap entry", 60_exceptions.md R225; there is no return from
one, R230), the unspecified bytes, and the conditions under which a command is undefined (20_memory.md R58 to R64). -/

namespace Sys2Proof.Machine

/-! ## Memory (10_state.md R32, 20_memory.md R50, R51, R55, R56) -/

/-- `mem[a]`. -/
def Memory.read (m : Memory) (a : Nat) : Byte :=
  match m with
  | [] => Config.unwrittenByte
  | c :: rest => if c.1 = a then c.2 else Memory.read rest a

/-- The memory without an entry for `a`. -/
def Memory.erase (m : Memory) (a : Nat) : Memory :=
  m.filter fun c => c.1 != a

/-- A new entry before the first greater address. -/
def Memory.insert (m : Memory) (a : Nat) (v : Byte) : Memory :=
  match m with
  | [] => [(a, v)]
  | c :: rest => if a < c.1 then (a, v) :: c :: rest else c :: Memory.insert rest a v

/-- `mem[a] <- v`, in the canonical form: the value an unlisted address reads as is not listed. -/
def Memory.write (m : Memory) (a : Nat) (v : Byte) : Memory :=
  if v = Config.unwrittenByte then Memory.erase m a else Memory.insert (Memory.erase m a) a v

/-- The canonical form: addresses below 2^32 and strictly rising, no entry equal to what an unlisted address reads as. -/
def Memory.wf (m : Memory) : Bool :=
  match m with
  | [] => true
  | c :: rest =>
    decide (c.1 < Config.addressLimit) && decide (c.2 ≠ Config.unwrittenByte)
      && rest.all (fun d => decide (c.1 < d.1)) && Memory.wf rest

/-- The buffer of `n` bytes at `a`: byte `i` is at address `a + i` (R51). -/
def Memory.readBytes (m : Memory) (a : Nat) : Nat → List Byte
  | 0 => []
  | n + 1 => Memory.read m a :: Memory.readBytes m (a + 1) n

/-- The memory with unspecified values in the `n` bytes at `a`: one draw per byte, from draw number `k` on (log 6). -/
def Memory.fillFree (m : Memory) (a k : Nat) : Nat → Memory
  | 0 => m
  | n + 1 => Memory.fillFree (Memory.write m a (Config.freeByte k)) (a + 1) (k + 1) n

/-! ## Regions -/

/-- Whether an address lies in a region. -/
def Region.contains (r : Region) (a : Nat) : Bool :=
  decide (r.base ≤ a) && decide (a < r.base + r.size)

/-- Whether two regions have an address in common. -/
def Region.meets (r t : Region) : Bool :=
  decide (max r.base t.base < min (r.base + r.size) (t.base + t.size))

/-- Whether a region runs past the last address (20_memory.md R58). -/
def Region.wraps (r : Region) : Bool :=
  decide (Config.addressLimit < r.base + r.size)

/-! ## The platform -/

/-- The block's register window (R50). -/
def Platform.window (p : Platform) : Region where
  base := p.regBase
  size := Config.windowSize

/-- `busOk(addr, kind)` (R55, R56): the platform completes the access without an error. -/
def Platform.busOk (p : Platform) (a : Nat) : AccessKind → Bool
  | .read => p.readErrors.all fun r => !r.contains a
  | .write => p.writeErrors.all fun r => !r.contains a

/-- Whether a region holds no address of the block's own window or of a device (R60). -/
def Platform.ordinary (p : Platform) (r : Region) : Bool :=
  !r.meets p.window && p.devices.all fun d => !r.meets d

/-! ## The register window (30_encoding.md R81) -/

/-- What a host read of a slot returns: CTRL and the reserved offsets read zero (R25, R28). -/
def readSlot (s : State) : Slot → Word
  | .src => s.regs.src
  | .dst => s.regs.dst
  | .len => s.regs.len
  | .ctrl => 0x00000000#32
  | .status => s.regs.status
  | .result => s.regs.result
  | .rsvd18 => 0x00000000#32
  | .rsvd1C => 0x00000000#32

/-- The storage effect of a host write to a slot: STATUS, RESULT and the reserved offsets ignore it (R117 to R119); CTRL has
no storage (R25), its command is `execWrCtrl`'s. -/
def writeSlot (s : State) (v : Word) : Slot → State
  | .src => { s with regs := { s.regs with src := v } }
  | .dst => { s with regs := { s.regs with dst := v } }
  | .len => { s with regs := { s.regs with len := v } }
  | .ctrl => s
  | .status => s
  | .result => s
  | .rsvd18 => s
  | .rsvd1C => s

/-- The return of a value to the host (R120 to R126; log 3). -/
def answer (s : State) (v : Word) : State :=
  { s with reply := some v }

/-! ## Ending a command -/

/-- `finish(err, reason, result)` (60_exceptions.md R225): STATUS and RESULT, and nothing else. -/
def finish (c : Completion) (result : Word) (s : State) : State :=
  { s with regs := { s.regs with status := c.status, result := result } }

/-- Unspecified values in every byte of a region (R191, R228, R261). -/
def havoc (r : Region) (s : State) : State :=
  { s with mem := Memory.fillFree s.mem r.base s.draws r.size, draws := s.draws + r.size }

/-- The registers of a block take their reset values; memory is not touched and no access is answered (R260). -/
def blockReset (s : State) : State :=
  { s with regs := Regs.reset, reply := none }

/-! ## When a command is undefined -/

/-- Whether an access of another agent breaks R64: a write to the read region, or any access to the write region. -/
def AgentAccess.clashes (rr wr : Region) : AgentAccess → Bool
  | .read a => wr.contains a.toNat
  | .write a _ => rr.contains a.toNat || wr.contains a.toNat

/-- The well-definedness conditions of a command with a read and a write region, in the order of the pseudocode of R140 and
R180: wrap (R58), side-effecting region (R60), overlap (R61), concurrent access (R64). -/
def commandFault (rr wr : Region) (s : State) : Option Fault :=
  if rr.wraps || wr.wraps then some .addressWrap
  else if !s.plat.ordinary rr || !s.plat.ordinary wr then some .sideEffectingRegion
  else if rr.meets wr then some .overlap
  else if s.concurrent.any (AgentAccess.clashes rr wr) then some .concurrentAccess
  else none

/-! ## Sequencing -/

/-- Go on from a next state; a fault or a refusal ends it. -/
def andThen (o : Result) (f : State → Result) : Result :=
  match o with
  | .next s => f s
  | .fault r => .fault r
  | .refused r => .refused r

end Sys2Proof.Machine
end

