-- ==== Sys2Proof/Machine/Engine.lean ====
section
/-! DEFINITION. The engine: the byte accesses ENCODE and DECODE make, in the order of their pseudocode (41_encode.md R140,
42_decode.md R180), and how a command ends once they are known (60_exceptions.md R224). -/

namespace Sys2Proof.Machine

/-- One access of the engine to data memory: `MemRead(a, 1)` or `MemWrite(a, 1, v)` (20_memory.md R54). -/
inductive EngineAccess where
  | read (a : Nat)
  | write (a : Nat) (v : Byte)
  deriving DecidableEq, Repr

/-- Whether the platform answers an access with an error. -/
def EngineAccess.fails (p : Platform) : EngineAccess → Bool
  | .read a => !p.busOk a .read
  | .write a _ => !p.busOk a .write

/-- Whether an access is a read. -/
def EngineAccess.isRead : EngineAccess → Bool
  | .read _ => true
  | .write _ _ => false

/-- The address an access writes, if it is a write. -/
def EngineAccess.writeAddress? : EngineAccess → Option Nat
  | .read _ => none
  | .write a _ => some a

/-- The address an access reads, if it is a read. -/
def EngineAccess.readAddress? : EngineAccess → Option Nat
  | .read a => some a
  | .write _ _ => none

/-- The addresses a sequence writes, in order. -/
def writtenAddresses (es : List EngineAccess) : List Nat :=
  es.filterMap EngineAccess.writeAddress?

/-- The addresses a sequence reads, in order. -/
def readAddresses (es : List EngineAccess) : List Nat :=
  es.filterMap EngineAccess.readAddress?

/-- The memory after the writes of a sequence of accesses, in order. A read has no side effect (R55). -/
def applyWrites (m : Memory) : List EngineAccess → Memory
  | [] => m
  | .read _ :: rest => applyWrites m rest
  | .write a v :: rest => applyWrites (Memory.write m a v) rest

/-- How the accesses of a command end when none is refused: with a number of bytes written, or at a zero byte. -/
inductive CommandEnding where
  | success (wr : Nat)
  | malformed (reason : MalformedReason)
  deriving DecidableEq, Repr

/-- The accesses a command makes when none is refused (the sequence `A` of R228) and their ending. -/
structure CommandRun where
  trace  : List EngineAccess
  ending : CommandEnding
  deriving DecidableEq, Repr

/-! ## ENCODE -/

/-- ENCODE's cursors (10_state.md R31): destination offsets of the reserved overhead slot and of the next write, and the
literal-run counter. -/
structure EncodeCursor where
  codePos : Nat
  wr      : Nat
  code    : Byte
  deriving DecidableEq, Repr

/-- The cursors at the start (R141). -/
def EncodeCursor.start : EncodeCursor where
  codePos := 0
  wr := 1
  code := 1#8

/-- Whether a byte fills the current block: the counter reaches 0xFF (R143). -/
def EncodeCursor.fills (c : EncodeCursor) : Bool :=
  c.code + 1#8 == Config.fullCode

/-- The cursors after a source byte (R142, R143). -/
def encodeNext (c : EncodeCursor) (b : Byte) : EncodeCursor :=
  if b = 0x00#8 then { codePos := c.wr, wr := c.wr + 1, code := 1#8 }
  else if c.fills then { codePos := c.wr + 1, wr := c.wr + 1 + 1, code := 1#8 }
  else { codePos := c.codePos, wr := c.wr + 1, code := c.code + 1#8 }

/-- The writes for a source byte (R142, R143). -/
def encodeWrites (dst : Nat) (c : EncodeCursor) (b : Byte) : List EngineAccess :=
  if b = 0x00#8 then [.write (dst + c.codePos) c.code]
  else if c.fills then [.write (dst + c.wr) b, .write (dst + c.codePos) Config.fullCode]
  else [.write (dst + c.wr) b]

/-- The cursors after the loop. -/
def encodeEnd (c : EncodeCursor) (xs : List Byte) : EncodeCursor :=
  xs.foldl encodeNext c

/-- The accesses of the loop over the source bytes from address `a` on, and the final write (R144). -/
def encodeTrace (dst a : Nat) (c : EncodeCursor) : List Byte → List EngineAccess
  | [] => [.write (dst + c.codePos) c.code]
  | b :: bs => .read a :: (encodeWrites dst c b ++ encodeTrace dst (a + 1) (encodeNext c b) bs)

/-- The RESULT of encoding: the final write cursor (R145). -/
def encodedLength (xs : List Byte) : Nat :=
  (encodeEnd EncodeCursor.start xs).wr

/-- A run of ENCODE over its source bytes. -/
def encodeRun (src dst : Nat) (xs : List Byte) : CommandRun where
  trace := encodeTrace dst src EncodeCursor.start xs
  ending := .success (encodedLength xs)

/-! ## DECODE -/

/-- The accesses of one literal run (R183): up to its first zero byte. -/
def literalTrace (src dst rd wr : Nat) : List Byte → List EngineAccess
  | [] => []
  | b :: bs =>
    .read (src + rd) ::
      (if b = 0x00#8 then [] else .write (dst + wr) b :: literalTrace src dst (rd + 1) (wr + 1) bs)

/-- The literal-run length `k` (R182): the overhead byte minus one, clamped to the bytes that remain. -/
def runLength (code : Byte) (remaining : Nat) : Nat :=
  min (code.toNat - 1) remaining

/-- The writes after a literal run that is not the last: the restored zero, unless the block is full (R185). -/
def restoredZero (dst wr : Nat) (code : Byte) : List EngineAccess :=
  if code = Config.fullCode then [] else [.write (dst + wr) 0x00#8]

/-- The loop of DECODE from the cursors `rd` and `wr`, over the source bytes that remain. Each pass reads at least one, so as
many passes as there are source bytes are enough (R180); the two first cases are never reached from `decodeRun`. -/
def decodeLoop (src dst : Nat) : Nat → Nat → Nat → List Byte → CommandRun
  | 0, _, wr, _ => { trace := [], ending := .success wr }
  | _ + 1, _, wr, [] => { trace := [], ending := .success wr }
  | fuel + 1, rd, wr, code :: rest =>
    if code = 0x00#8 then { trace := [.read (src + rd)], ending := .malformed .zeroOverhead }
    else
      let k := runLength code rest.length
      let run := .read (src + rd) :: literalTrace src dst (rd + 1) wr (rest.take k)
      if (rest.take k).contains 0x00#8 then { trace := run, ending := .malformed .zeroLiteral }
      else if k = rest.length then { trace := run, ending := .success (wr + k) }
      else
        let zeros := restoredZero dst (wr + k) code
        let more := decodeLoop src dst fuel (rd + 1 + k) (wr + k + zeros.length) (rest.drop k)
        { trace := run ++ (zeros ++ more.trace), ending := more.ending }

/-- A run of DECODE over its source bytes. -/
def decodeRun (src dst : Nat) (ys : List Byte) : CommandRun :=
  decodeLoop src dst ys.length 0 0 ys

/-! ## Ending a command -/

/-- The kind of access a BusError reports: the one that fails, a free choice where both do (R228; log 7). -/
def busErrorKind (s : State) (trace : List EngineAccess) : Option AccessKind :=
  let failing := trace.filter (EngineAccess.fails s.plat)
  match failing.any EngineAccess.isRead, failing.any (fun e => !e.isRead) with
  | false, false => none
  | true, false => some .read
  | false, true => some .write
  | true, true => some (if Config.freeBusReason s.draws then .read else .write)

/-- A command with valid arguments, its regions, the accesses it makes and how they end: undefined, BusError, MalformedStream
or success, first match wins (R224). -/
def runCommand (rr wr : Region) (run : CommandRun) (s : State) : Result :=
  match commandFault rr wr s with
  | some f => .fault f
  | none =>
    match busErrorKind s run.trace with
    | some k => .next (finish (.busError k) 0x00000000#32 (havoc wr s))
    | none =>
      match run.ending with
      | .malformed r => .next (finish (.malformedStream r) 0x00000000#32 (havoc wr s))
      | .success n =>
        .next (finish .success (BitVec.ofNat 32 n) { s with mem := applyWrites s.mem run.trace })

/-! ## The two commands -/

/-- The source bytes, "read at the command's start" (R140, R180). -/
def sourceBytes (o : Operands) (s : State) : List Byte :=
  Memory.readBytes s.mem o.src o.count

/-- The read region of both commands (20_memory.md R57). -/
def readRegion (o : Operands) : Region where
  base := o.src
  size := o.count

/-- ENCODE's write region (R57). -/
def encodeWriteRegion (o : Operands) (s : State) : Region where
  base := o.dst
  size := encodedLength (sourceBytes o s)

/-- DECODE's write region, the worst case (R57). -/
def decodeWriteRegion (o : Operands) : Region where
  base := o.dst
  size := o.count

/-- `Encode(src, dst, n)` (R140). -/
def encodeCommandEffect (s : State) : Result :=
  let o := operands s
  match checkArgs o with
  | some r => .next (finish (.invalidArguments r) 0x00000000#32 s)
  | none =>
    runCommand (readRegion o) (encodeWriteRegion o s) (encodeRun o.src o.dst (sourceBytes o s)) s

/-- `Decode(src, dst, n)` (R180). -/
def decodeCommandEffect (s : State) : Result :=
  let o := operands s
  match checkArgs o with
  | some r => .next (finish (.invalidArguments r) 0x00000000#32 s)
  | none =>
    runCommand (readRegion o) (decodeWriteRegion o) (decodeRun o.src o.dst (sourceBytes o s)) s

/-- A rejected command (R116, R229). -/
def rejectCommand (r : BadReason) (s : State) : Result :=
  .next (finish (.badCommand r) 0x00000000#32 s)

/-- The read and the write region of a command that accesses memory (R57): none for NOP, BADCMD and a command that fails
CheckArgs, whose regions are empty. -/
def commandRegions (c : Command) (s : State) : Option (Region × Region) :=
  let o := operands s
  match c, checkArgs o with
  | .encode, none => some (readRegion o, encodeWriteRegion o s)
  | .decode, none => some (readRegion o, decodeWriteRegion o)
  | .encode, some _ => none
  | .decode, some _ => none
  | .nop, _ => none
  | .badcmd _, _ => none

end Sys2Proof.Machine
end

