-- ==== Sys2Proof/Machine/Ctrl.lean ====
section
/-! DEFINITION. The meanings of the five commands of format `ctrl` (30_encoding.md R83). -/

namespace Sys2Proof.Machine

/-- ENCODE (41_encode.md R140). -/
def execEncode (s : State) : Result :=
  encodeCommandEffect s

/-- DECODE (42_decode.md R180). -/
def execDecode (s : State) : Result :=
  decodeCommandEffect s

/-- NOP: "no register and no memory byte changes" (40_register_access.md R115), whatever the ignored bits are. -/
def execNop (_ignored : BitVec 31) (s : State) : Result :=
  .next s

/-- BADCMD_OP (R116): both reserved values of OP. -/
def execBadcmdOp (_op : ReservedOp) (s : State) : Result :=
  rejectCommand .reservedOp s

/-- BADCMD_BITS (R116): whatever OP is, since `w[31:3]` is tested first (R84). -/
def execBadcmdBits (_rsvd : BitVec 29) (_op : BitVec 2) (s : State) : Result :=
  rejectCommand .reservedBits s

end Sys2Proof.Machine
end

