-- ==== Sys2Proof/Machine/Mmio.lean ====
section
/-! DEFINITION. The meanings of the fourteen register accesses of format `mmio` (40_register_access.md R111 to R126). -/

namespace Sys2Proof.Machine

/-! ## Writes -/

/-- WR_SRC (R111). -/
def execWrSrc (v : Word) (s : State) : Result :=
  .next (writeSlot s v .src)

/-- WR_DST (R112). -/
def execWrDst (v : Word) (s : State) : Result :=
  .next (writeSlot s v .dst)

/-- WR_LEN (R113). -/
def execWrLen (v : Word) (s : State) : Result :=
  .next (writeSlot s v .len)

/-- WR_CTRL, the command write (R114): the data word is decoded and the command performed. -/
def execWrCtrl (w : Word) (s : State) : Result :=
  match decodeCommand w with
  | .nop => .next s
  | .badcmd r => rejectCommand r s
  | .encode => encodeCommandEffect s
  | .decode => decodeCommandEffect s

/-- WR_STATUS (R117): STATUS is read-only. -/
def execWrStatus (v : Word) (s : State) : Result :=
  .next (writeSlot s v .status)

/-- WR_RESULT (R118): RESULT is read-only. -/
def execWrResult (v : Word) (s : State) : Result :=
  .next (writeSlot s v .result)

/-- WR_RSVD (R119): a write to a reserved offset is ignored. -/
def execWrRsvd (off : ReservedOffset) (v : Word) (s : State) : Result :=
  .next (writeSlot s v off.slot)

/-! ## Reads -/

/-- RD_SRC (R120). -/
def execRdSrc (s : State) : Result :=
  .next (answer s (readSlot s .src))

/-- RD_DST (R121). -/
def execRdDst (s : State) : Result :=
  .next (answer s (readSlot s .dst))

/-- RD_LEN (R122): the raw pattern. -/
def execRdLen (s : State) : Result :=
  .next (answer s (readSlot s .len))

/-- RD_CTRL (R123): zero; it starts no command. -/
def execRdCtrl (s : State) : Result :=
  .next (answer s (readSlot s .ctrl))

/-- RD_STATUS (R124): it clears no field. -/
def execRdStatus (s : State) : Result :=
  .next (answer s (readSlot s .status))

/-- RD_RESULT (R125). -/
def execRdResult (s : State) : Result :=
  .next (answer s (readSlot s .result))

/-- RD_RSVD (R126): a reserved offset reads zero. -/
def execRdRsvd (off : ReservedOffset) (s : State) : Result :=
  .next (answer s (readSlot s off.slot))

end Sys2Proof.Machine
end

