-- ==== Sys2Proof/Machine/Dispatch.lean ====
section
/-! DEFINITION. From an instruction to its meaning, one arm per constructor of `Instr`. -/

namespace Sys2Proof.Machine

def exec (i : Instr) (s : State) : Host.Outcome State Fault Refusal :=
  match i with
  -- format ctrl
  | .encode => Sys2Proof.Machine.execEncode s
  | .decode => Sys2Proof.Machine.execDecode s
  | .nop ignored => Sys2Proof.Machine.execNop ignored s
  | .badcmdOp op => Sys2Proof.Machine.execBadcmdOp op s
  | .badcmdBits rsvd op => Sys2Proof.Machine.execBadcmdBits rsvd op s
  -- format mmio, writes
  | .wrSrc v => Sys2Proof.Machine.execWrSrc v s
  | .wrDst v => Sys2Proof.Machine.execWrDst v s
  | .wrLen v => Sys2Proof.Machine.execWrLen v s
  | .wrCtrl w => Sys2Proof.Machine.execWrCtrl w s
  | .wrStatus v => Sys2Proof.Machine.execWrStatus v s
  | .wrResult v => Sys2Proof.Machine.execWrResult v s
  | .wrRsvd off v => Sys2Proof.Machine.execWrRsvd off v s
  -- format mmio, reads
  | .rdSrc => Sys2Proof.Machine.execRdSrc s
  | .rdDst => Sys2Proof.Machine.execRdDst s
  | .rdLen => Sys2Proof.Machine.execRdLen s
  | .rdCtrl => Sys2Proof.Machine.execRdCtrl s
  | .rdStatus => Sys2Proof.Machine.execRdStatus s
  | .rdResult => Sys2Proof.Machine.execRdResult s
  | .rdRsvd off => Sys2Proof.Machine.execRdRsvd off s

end Sys2Proof.Machine
end

