-- ==== Sys2Proof/Machine/Events.lean ====
section
/-! DEFINITION. What each event from the outside does: a host access (40_register_access.md R110), a store to memory by an
agent outside the block, a reset between accesses and one during an access (70_reset_and_hazards.md R260, R261). -/

namespace Sys2Proof.Machine

/-! ## Accesses of other agents -/

/-- A store of one byte by an agent outside the block (log 11). To the block's window it is an access of 8 bits, which R110
leaves undefined; to a device it has an effect the spec does not give. -/
def agentStore (a : Word) (v : Byte) (s : State) : Result :=
  if s.plat.window.contains a.toNat then .refused .accessSize
  else if s.plat.devices.any (fun d => d.contains a.toNat) then .refused .deviceStore
  else .next { s with mem := Memory.write s.mem a.toNat v }

/-- A read of one byte by an agent outside the block. Of the block's window it is an access of 8 bits, which R89 and R110 leave
undefined; any other read leaves the block and memory as they are (log 23 for a device's byte). -/
def agentRead (a : Word) (s : State) : Result :=
  if s.plat.window.contains a.toNat then .refused .accessSize else .next s

/-- What the accesses of other agents leave in memory, in their order (log 10). -/
def agentAccesses (s : State) : List AgentAccess → Result
  | [] => .next s
  | .read a :: rest => andThen (agentRead a s) fun t => agentAccesses t rest
  | .write a v :: rest => andThen (agentStore a v s) fun t => agentAccesses t rest

/-- A step of the block while other agents access memory: the block sees their accesses (R64), and their stores are in memory
afterwards. A command that goes on reads and writes none of the bytes they write, so the order does not matter. -/
def whileOthers (others : List AgentAccess) (f : State → Result) (s : State) : Result :=
  andThen (f { s with concurrent := others }) fun t => agentAccesses { t with concurrent := [] } others

/-! ## A reset during an access -/

/-- The command that an instruction performs, none for a register access that performs none. -/
def instrCommand : Instr → Option Command
  | .encode => some .encode
  | .decode => some .decode
  | .nop _ => some .nop
  | .badcmdOp _ => some (.badcmd .reservedOp)
  | .badcmdBits _ _ => some (.badcmd .reservedBits)
  | .wrSrc _ => none
  | .wrDst _ => none
  | .wrLen _ => none
  | .wrCtrl w => some (decodeCommand w)
  | .wrStatus _ => none
  | .wrResult _ => none
  | .wrRsvd _ _ => none
  | .rdSrc => none
  | .rdDst => none
  | .rdLen => none
  | .rdCtrl => none
  | .rdStatus => none
  | .rdResult => none
  | .rdRsvd _ => none

/-- An access that a reset abandons (R261): the registers take their reset values and every byte of the command's write region
is unspecified. A command that is undefined (R58 to R64) is undefined here too (R224). -/
def abandon (i : Instr) (s : State) : Result :=
  match (instrCommand i).bind fun c => commandRegions c s with
  | none => .next (blockReset s)
  | some (rr, wr) =>
    match commandFault rr wr s with
    | some f => .fault f
    | none => .next (blockReset (havoc wr s))

/-! ## Events -/

/-- A host access: nothing happens in the block when it is not an access to it, it is refused when its size or alignment is
not the block's, and otherwise `f` is what its instruction does. -/
def hostAccess (f : Instr → State → Result) (a : BusAccess) (s : State) : Result :=
  match decodeBus s.plat.regBase a with
  | .notOurs => .next s
  | .rejected _ => .refused .accessSize
  | .instr i => f i s

/-- What an event does. A reset that falls in an access to something else resets the block. -/
def perform (e : HostEvent) (s : State) : Result :=
  match e with
  | .access a others => whileOthers others (hostAccess exec a) s
  | .store a v => agentStore a v s
  | .reset => .next (blockReset s)
  | .resetDuring a others =>
    whileOthers others (fun t => andThen (hostAccess abandon a t) fun u => .next (blockReset u)) s

/-- The state in which an event is performed: the event is taken from the queue and nothing has been returned yet. -/
def takeEvent (s : State) (rest : List HostEvent) : State :=
  { s with inbox := rest, reply := none }

/-- The event that carries an encoding to the block, with no other agent active. -/
def carryingEvent (s : State) (e : Encoding) : HostEvent :=
  .access (busAccess s.plat.regBase e) []

/-- The state with an event put where the next step takes it. -/
def pushEvent (s : State) (e : HostEvent) : State :=
  { s with inbox := e :: s.inbox }

end Sys2Proof.Machine
end

