-- ==== Sys2Proof/Machine/Step.lean ====
section
/-! DEFINITION. One step of the machine: the next event from the outside is performed, "each host access is one step"
(10_state.md R29). With no event waiting the block is at rest (log 2). -/

namespace Sys2Proof.Machine

/-- One step. -/
def step (s : State) : Host.Outcome State Fault Refusal :=
  match s.inbox with
  | [] => .next s
  | e :: rest => perform e (takeEvent s rest)

/-- The state whose very next step performs the access that carries a table word (log 1, log 13). -/
def State.withFetchWord (s : State) (nbits w : Nat) : State :=
  match tableEncoding nbits w with
  | none => s
  | some e => pushEvent s (carryingEvent s e)

end Sys2Proof.Machine
end

