-- ==== Sys2Proof/Machine/Instances.lean ====
section
/-! DEFINITION. Several blocks on one platform (60_exceptions.md R236): each has its own register window and its own state;
"they share only memory". One step of one of them is the machine's step over the shared memory. -/

namespace Sys2Proof.Machine

/-- What one block does not share. -/
structure Block where
  regs  : Regs
  plat  : Platform
  inbox : List HostEvent
  reply : Option Word
  deriving DecidableEq, Repr

/-- A platform with `NUM_INSTANCES = blocks.length` blocks (log 15). The count of unspecified values drawn is shared too, so
that no value is drawn twice. -/
structure System where
  blocks : List Block
  mem    : Memory
  draws  : Nat
  deriving DecidableEq, Repr

/-- The machine that one block is: to its engine the windows of all blocks are device registers (20_memory.md R60). What an
event of this block says of another block's window is no access of that block's (log 24). -/
def System.view (y : System) (b : Block) : State where
  regs := b.regs
  mem := y.mem
  plat := { b.plat with devices := b.plat.devices ++ y.blocks.map fun c => c.plat.window }
  inbox := b.inbox
  reply := b.reply
  concurrent := []
  draws := y.draws

/-- The block after its machine's step; its platform is fixed. -/
def Block.after (b : Block) (t : State) : Block where
  regs := t.regs
  plat := b.plat
  inbox := t.inbox
  reply := t.reply

/-! ## Accesses of another block's window -/

/-- The byte an access of another agent touches. -/
def AgentAccess.address : AgentAccess → Nat
  | .read a => a.toNat
  | .write a _ => a.toNat

/-- Whether a host access touches a block's window and is not an aligned 32-bit word of it (R110). -/
def BusAccess.rejectedBy (a : BusAccess) (p : Platform) : Bool :=
  match decodeBus p.regBase a with
  | .notOurs => false
  | .rejected _ => true
  | .instr _ => false

/-- Whether an event makes an access of a block's window that is not an aligned 32-bit word, by the host or another agent. -/
def HostEvent.rejectedBy (e : HostEvent) (p : Platform) : Bool :=
  match e with
  | .access a others => BusAccess.rejectedBy a p || others.any fun o => p.window.contains o.address
  | .store a _ => p.window.contains a.toNat
  | .reset => false
  | .resetDuring a others => BusAccess.rejectedBy a p || others.any fun o => p.window.contains o.address

/-- Whether the next event of block `k` makes such an access of the window of another block. -/
def System.siblingRejects (y : System) (k : Nat) (b : Block) : Bool :=
  match b.inbox with
  | [] => false
  | e :: _ => (y.blocks.eraseIdx k).any fun c => e.rejectedBy c.plat

/-! ## Steps -/

/-- A step of block `k`; with no such block, nothing. An access of any block's window that is not an aligned 32-bit word is
refused, whichever block's event holds it (R89, R110). -/
def System.stepBlock (y : System) (k : Nat) : Host.Outcome System Fault Refusal :=
  match y.blocks[k]? with
  | none => .next y
  | some b =>
    if y.siblingRejects k b then .refused .accessSize
    else
    match step (y.view b) with
    | .next t => .next { blocks := y.blocks.set k (b.after t), mem := t.mem, draws := t.draws }
    | .fault f => .fault f
    | .refused r => .refused r

end Sys2Proof.Machine
end

