-- ==== Sys2Proof/Safety.lean ====
section
/-! DEFINITION. The terms in which claims about the machine are stated: the invariant of every step, when a command is
defined, and the spec's own closed forms of what the codec computes (41_encode.md R147, R148, 42_decode.md R188), written
apart from the engine's loops. -/

namespace Sys2Proof.Safety

open Sys2Proof.Machine

/-! ## The invariant -/

/-- The STATUS words that can be read: the reset value, and the word of each row of R221. -/
def legalStatus (w : Word) : Prop :=
  w = 0x00000000#32 ∨ ∃ c : Completion, w = c.status

/-- What every step keeps: the memory is canonical and inside its 2^32 bytes, STATUS is a legal word, RESULT is zero unless the
last command succeeded (R27, R34), and no access is in progress between steps (R62). -/
structure MachineInv (s : State) : Prop where
  memory : Memory.wf s.mem = true
  status : legalStatus s.regs.status
  result : s.regs.status ≠ 0x00000100#32 → s.regs.result = 0x00000000#32
  idle   : s.concurrent = []

/-! ## The register map -/

/-- An aligned 32-bit access at an offset of the window is this instruction, wherever the window lies (R80, R81). -/
def Carries (d : Dir) (off : Nat) (v : Word) (i : Instr) : Prop :=
  ∀ base : Nat, decodeBus base { dir := d, addr := base + off, width := .w32, data := v } = .instr i

/-! ## When a command is defined -/

/-- The address is in the region. -/
def within (r : Region) (a : Nat) : Prop :=
  r.base ≤ a ∧ a < r.base + r.size

/-- Valid arguments: none of the four causes of R222. -/
structure ArgsValid (s : State) : Prop where
  dstSet     : s.regs.dst ≠ 0x00000000#32
  srcSet     : s.regs.src ≠ 0x00000000#32
  srcIsntDst : s.regs.src ≠ s.regs.dst
  lenPos     : 0 < s.regs.len.toInt

/-- The source buffer of a command (20_memory.md R57). -/
def readArea (s : State) : Region where
  base := s.regs.src.toNat
  size := s.regs.len.toInt.toNat

/-- The source bytes of a command. -/
def source (s : State) : List Byte :=
  Memory.readBytes s.mem (readArea s).base (readArea s).size

/-- No address of the region is the block's own register window or a device's (R60). -/
def OrdinaryArea (p : Platform) (r : Region) : Prop :=
  ∀ a, within r a → ¬ within p.window a ∧ ∀ d ∈ p.devices, ¬ within d a

/-- An access of another agent keeps to R64: it writes no byte of the read region and touches none of the write region. -/
def Undisturbing (rr wr : Region) : AgentAccess → Prop
  | .read a => ¬ within wr a.toNat
  | .write a _ => ¬ within rr a.toNat ∧ ¬ within wr a.toNat

/-- The host's duties for a command with a read and a write region: no wrap (R58), ordinary memory (R60), no overlap (R61),
no concurrent access (R64). -/
structure RegionsDefined (rr wr : Region) (s : State) : Prop where
  readFits       : rr.base + rr.size ≤ 2 ^ 32
  writeFits      : wr.base + wr.size ≤ 2 ^ 32
  readOrdinary   : OrdinaryArea s.plat rr
  writeOrdinary  : OrdinaryArea s.plat wr
  disjoint       : ∀ a, ¬ (within rr a ∧ within wr a)
  undisturbed    : ∀ e ∈ s.concurrent, Undisturbing rr wr e

/-- The platform answers every access of the two regions (R55, R56). -/
def BusFine (rr wr : Region) (s : State) : Prop :=
  (∀ a, within rr a → s.plat.busOk a .read = true) ∧ ∀ a, within wr a → s.plat.busOk a .write = true

/-- The memory holds these bytes from an address on (R51). -/
def HoldsBytes (m : Memory) (a : Nat) (bs : List Byte) : Prop :=
  ∀ i (h : i < bs.length), Memory.read m (a + i) = bs[i]

/-- Two memories read the same at every address outside a region. -/
def SameOutside (r : Region) (m k : Memory) : Prop :=
  ∀ a, ¬ within r a → Memory.read k a = Memory.read m a

/-- Two memories read the same at every address. -/
def SameBytes (m k : Memory) : Prop :=
  ∀ a, Memory.read k a = Memory.read m a

/-! ## The code, in the spec's closed form -/

/-- The zero-free segments of a raw buffer, `x = s_0 ++ [00] ++ ... ++ [00] ++ s_m` (R147). -/
def segments : List Byte → List (List Byte)
  | [] => [[]]
  | b :: bs =>
    if b = 0x00#8 then [] :: segments bs
    else
      match segments bs with
      | [] => [[b]]
      | s :: ss => (b :: s) :: ss

/-- `EncSeg(s)` (R148), with as many unfoldings as there are bytes, which is enough. -/
def encSegFuel : Nat → List Byte → List Byte
  | 0, s => BitVec.ofNat 8 (s.length + 1) :: s
  | fuel + 1, s =>
    if 254 ≤ s.length then 0xFF#8 :: (s.take 254 ++ encSegFuel fuel (s.drop 254))
    else BitVec.ofNat 8 (s.length + 1) :: s

/-- `EncSeg(s)` (R148). -/
def encSeg (s : List Byte) : List Byte :=
  encSegFuel s.length s

/-- `Encode(x) = EncSeg(s_0) ++ ... ++ EncSeg(s_m)` (R148). -/
def segmentForm (x : List Byte) : List Byte :=
  (segments x).flatMap encSeg

/-- `n + 1 + Σ floor(|s_j| / 254)` (R147). -/
def segmentLength (x : List Byte) : Nat :=
  x.length + 1 + ((segments x).map fun s => s.length / 254).sum

/-- ENCODE's write region by the closed form (R57, R147). -/
def encodeArea (s : State) : Region where
  base := s.regs.dst.toNat
  size := segmentLength (source s)

/-- DECODE's write region (R57). -/
def decodeArea (s : State) : Region where
  base := s.regs.dst.toNat
  size := s.regs.len.toInt.toNat

/-- A block of a stuffed buffer: its overhead byte and the literal bytes present (00_scope.md R9). -/
structure CodeBlock where
  code     : Byte
  literals : List Byte
  deriving DecidableEq, Repr

/-- The bytes of a list of blocks. -/
def blockBytes (bs : List CodeBlock) : List Byte :=
  bs.flatMap fun b => b.code :: b.literals

/-- Blocks that tile a zero-free stuffed buffer (R187, R188): each holds the `code - 1` literals its overhead byte says, but
for the last one, which may hold fewer (the clamp of R182). -/
def Tiles : List CodeBlock → Prop
  | [] => False
  | [b] => b.code ≠ 0x00#8 ∧ 0x00#8 ∉ b.literals ∧ b.literals.length ≤ b.code.toNat - 1
  | b :: c :: rest =>
    b.code ≠ 0x00#8 ∧ 0x00#8 ∉ b.literals ∧ b.literals.length = b.code.toNat - 1 ∧ Tiles (c :: rest)

/-- What a list of blocks decodes to: the literals, and a zero after every block but the last whose overhead byte is not 0xFF
(R184, R185). -/
def decodedBlocks : List CodeBlock → List Byte
  | [] => []
  | [b] => b.literals
  | b :: c :: rest =>
    b.literals ++ (if b.code = 0xFF#8 then [] else [0x00#8]) ++ decodedBlocks (c :: rest)

/-- `Σ k_i + #(i < q : c_i ≠ 0xFF)` (R188). -/
def decodedLength (bs : List CodeBlock) : Nat :=
  (bs.map fun b => b.literals.length).sum + (bs.dropLast.filter fun b => b.code ≠ 0xFF#8).length

/-- The bytes a run of DECODE has read when it stops at the first zero byte expected to be an overhead byte: nothing, or
whole blocks (R187). -/
def BlockBoundary (p : List Byte) : Prop :=
  p = [] ∨ ∃ bs, Tiles bs ∧ blockBytes bs = p ∧ ∀ b ∈ bs, b.literals.length = b.code.toNat - 1

/-- How many source bytes DECODE reads: up to and with the first zero, or all (R193). -/
def readSpan (ys : List Byte) : Nat :=
  min ((ys.takeWhile fun b => b ≠ 0x00#8).length + 1) ys.length

/-! ## Command registers -/

/-- The registers of a state with new arguments for a command. -/
def withArgs (s : State) (src dst len : Word) : State :=
  { s with regs := { s.regs with src := src, dst := dst, len := len } }

/-- The registers after a command ends with this STATUS and RESULT: the arguments are as they were (R33). -/
def endsWith (r : Regs) (status result : Word) : Regs :=
  { r with status := status, result := result }

end Sys2Proof.Safety
end

