-- ==== Sys2Proof/Certificates/Slice0/Obligations.lean ====
section
/-! DEFINITION. The statements for the provers, each from numbered rules of spec/ (OBLIGATIONS.json names them). The invariant,
the host's duties and the closed forms they speak of are in Sys2Proof/Safety.lean. -/

open Sys2Proof Sys2Proof.Machine Sys2Proof.Safety

/-! ## Reset and the step -/

/-- After reset every register is zero, CTRL and the reserved offsets read zero, and a reset touches no memory (R260). That a
reset is one event, which keeps the waiting queue and clears the reply, is the model's reading (log 12, log 3). -/
def Obligations.ResetClearsRegistersAndKeepsMemory : Prop :=
  State.reset.regs = ⟨0#32, 0#32, 0#32, 0#32, 0#32⟩ ∧
  (∀ s : State, exec .rdCtrl s = .next { s with reply := some 0#32 }) ∧
  (∀ (off : ReservedOffset) (s : State), exec (.rdRsvd off) s = .next { s with reply := some 0#32 }) ∧
  ∀ (s : State) (rest : List HostEvent), s.inbox = .reset :: rest →
    step s = .next { s with inbox := rest, reply := none, regs := ⟨0#32, 0#32, 0#32, 0#32, 0#32⟩ }

/-- The invariant holds after reset. -/
def Obligations.ResetMeetsTheInvariant : Prop :=
  MachineInv State.reset

/-- Every step keeps the invariant: canonical memory, a legal STATUS word, RESULT zero unless the last command succeeded. -/
def Obligations.StepKeepsTheInvariant : Prop :=
  ∀ s t : State, MachineInv s → step s = .next t → MachineInv t

/-- No step changes the platform's parameters, and the count of unspecified values drawn never goes down. -/
def Obligations.StepKeepsThePlatform : Prop :=
  ∀ s t : State, step s = .next t → t.plat = s.plat ∧ s.draws ≤ t.draws

/-- R29, R62. A step performs the instruction of the access at the head of the queue, whole, on the state with that access
taken and nothing returned yet; the stores other agents made meanwhile follow (log 1, log 10: the queue is the model's). -/
def Obligations.StepPerformsTheDecodedAccess : Prop :=
  ∀ (s : State) (a : BusAccess) (others : List AgentAccess) (rest : List HostEvent) (i : Instr),
    s.inbox = .access a others :: rest → decodeBus s.plat.regBase a = .instr i →
    step s = andThen (exec i { s with inbox := rest, reply := none, concurrent := others })
      (fun t => agentAccesses { t with concurrent := [] } others) ∧
    (others = [] →
      step s = andThen (exec i { s with inbox := rest, reply := none, concurrent := [] })
        fun t => .next { t with concurrent := [] })

/-- An access that touches no byte of the window changes nothing in the block (R110, log 14), so that only the stores of the
other agents remain (log 10); one in the window that is not 32 bits wide or not at a multiple of 4 is refused (R110), and so is
one that starts below the window and reaches into it (log 9: the model's reading), whatever other agents do; every other is
decoded to a well-formed instruction. -/
def Obligations.AccessesAreWholeAlignedWordsOfTheWindow : Prop :=
  ∀ (s : State) (a : BusAccess) (others : List AgentAccess) (rest : List HostEvent),
    s.inbox = .access a others :: rest →
    let taken := { s with inbox := rest, reply := none, concurrent := [] }
    (a.addr + a.width.bytes ≤ s.plat.regBase ∨ s.plat.regBase + 0x20 ≤ a.addr →
      step s = agentAccesses taken others ∧ (others = [] → step s = .next taken)) ∧
    (a.addr < s.plat.regBase → s.plat.regBase < a.addr + a.width.bytes → step s = .refused .accessSize) ∧
    (s.plat.regBase ≤ a.addr → a.addr < s.plat.regBase + 0x20 →
      a.width ≠ .w32 ∨ (a.addr - s.plat.regBase) % 4 ≠ 0 → step s = .refused .accessSize) ∧
    (s.plat.regBase ≤ a.addr → a.addr < s.plat.regBase + 0x20 →
      a.width = .w32 → (a.addr - s.plat.regBase) % 4 = 0 →
      ∃ i, decodeBus s.plat.regBase a = .instr i ∧ i.wellFormed = true)

/-- A table word that `withFetchWord` places runs as the decoder reads it: a command word as the command it stands for, in
the next step (log 13: the placing is the model's). -/
def Obligations.PlacedCommandWordRunsNext : Prop :=
  ∀ (s : State) (w : Word), s.concurrent = [] →
    decodeTableWord 32 w.toNat = some (decodeCtrl w) ∧
    step (s.withFetchWord 32 w.toNat) =
      andThen (exec (decodeCtrl w) { s with reply := none }) fun t => .next { t with concurrent := [] }

/-! ## Decoding and encoding -/

/-- R84. Every 32-bit word decodes to exactly one command, tested in the rule's order: here by the word's value. -/
def Obligations.EveryControlWordDecodes : Prop :=
  ∀ w : Word,
    (w.toNat % 2 = 0 → decodeCommand w = .nop) ∧
    (w.toNat % 2 = 1 → 8 ≤ w.toNat → decodeCommand w = .badcmd .reservedBits) ∧
    (w = 0x00000001#32 → decodeCommand w = .encode) ∧
    (w = 0x00000003#32 → decodeCommand w = .decode) ∧
    (w = 0x00000005#32 ∨ w = 0x00000007#32 → decodeCommand w = .badcmd .reservedOp)

/-- R83, R92. A decoder built from the four match and mask rows, with the fallback, is the same function; no word matches two
of the rows. -/
def Obligations.MatchMaskTableIsDecodeCtrl : Prop :=
  ∀ w : Word,
    decodeCommand w =
      (if w &&& 0xFFFFFFFF#32 = 0x00000001#32 then .encode
        else if w &&& 0xFFFFFFFF#32 = 0x00000003#32 then .decode
        else if w &&& 0x00000001#32 = 0x00000000#32 then .nop
        else if w &&& 0xFFFFFFFD#32 = 0x00000005#32 then .badcmd .reservedOp
        else .badcmd .reservedBits) ∧
    ¬ (w &&& 0x00000001#32 = 0x00000000#32 ∧ w &&& 0xFFFFFFFD#32 = 0x00000005#32) ∧
    (w = 0x00000001#32 ∨ w = 0x00000003#32 →
      ¬ w &&& 0x00000001#32 = 0x00000000#32 ∧ ¬ w &&& 0xFFFFFFFD#32 = 0x00000005#32)

/-- Decoding the encoding of a well-formed instruction gives it back: from its words, from their bytes, and from the bus
access that carries it, a command word arriving as the write of CTRL that it is. -/
def Obligations.DecodingAnEncodingGivesTheInstruction : Prop :=
  ∀ i : Instr, i.wellFormed = true →
    decode (encode i) = .ok i ∧
    decodeBytes (encodeBytes i) = .ok i ∧
    ∀ base : Nat,
      (∀ w, encode i = .ctrl w → decodeBus base (busAccess base (encode i)) = .instr (.wrCtrl w)) ∧
      ∀ a, encode i = .mmio a → decodeBus base (busAccess base (encode i)) = .instr i

/-- The other direction: what the decoder reads is well-formed, and encodes to the words it was read from (the data word of a
read, which has no meaning, aside). -/
def Obligations.EncodingADecodedWordGivesTheWord : Prop :=
  (∀ w : Word, (decodeCtrl w).wellFormed = true ∧ encode (decodeCtrl w) = .ctrl w) ∧
  ∀ (a : Access) (i : Instr), decodeMmio a = .ok i →
    i.wellFormed = true ∧ (a.dir = .write → encode i = .mmio a) ∧
    (a.dir = .read → encode i = .mmio { a with data := 0#32 })

/-- R83. The words of the commands, written out. -/
def Obligations.CommandWordsDecode : Prop :=
  decode (.ctrl 0b00000000000000000000000000000001#32) = .ok .encode ∧
  decode (.ctrl 0b00000000000000000000000000000011#32) = .ok .decode ∧
  decode (.ctrl 0b00000000000000000000000000000110#32) = .ok (.nop 3#31) ∧
  decode (.ctrl 0b00000000000000000000000000000101#32) = .ok (.badcmdOp .op10) ∧
  decode (.ctrl 0b00000000000000000000000000000111#32) = .ok (.badcmdOp .op11) ∧
  decode (.ctrl 0b00000000000000000000000000001001#32) = .ok (.badcmdBits 1#29 0#2)

/-! ## Register accesses -/

/-- R111, R112, R113. A write of SRC, DST or LEN, at its offset of the register map (R81), stores every value, and changes
nothing else. -/
def Obligations.WritesOfArgumentsStoreTheirValue : Prop :=
  ∀ (v : Word) (s : State),
    Carries .write 0x00 v (.wrSrc v) ∧ Carries .write 0x04 v (.wrDst v) ∧ Carries .write 0x08 v (.wrLen v) ∧
    exec (.wrSrc v) s = .next { s with regs := { s.regs with src := v } } ∧
    exec (.wrDst v) s = .next { s with regs := { s.regs with dst := v } } ∧
    exec (.wrLen v) s = .next { s with regs := { s.regs with len := v } }

/-- R117, R118, R119. A write of STATUS, RESULT or a reserved offset, each at its offset (R81), is ignored. -/
def Obligations.WritesOfReadOnlySlotsAreIgnored : Prop :=
  ∀ (v : Word) (off : ReservedOffset) (s : State),
    Carries .write 0x10 v (.wrStatus v) ∧ Carries .write 0x14 v (.wrResult v) ∧
    Carries .write 0x18 v (.wrRsvd .x18 v) ∧ Carries .write 0x1C v (.wrRsvd .x1C v) ∧
    exec (.wrStatus v) s = .next s ∧ exec (.wrResult v) s = .next s ∧ exec (.wrRsvd off v) s = .next s

/-- R120 to R126. A read, at its offset (R81), returns the register; CTRL and the reserved offsets read zero; nothing else
changes. -/
def Obligations.ReadsReturnTheRegister : Prop :=
  ∀ (v : Word) (off : ReservedOffset) (s : State),
    Carries .read 0x00 v .rdSrc ∧ Carries .read 0x04 v .rdDst ∧ Carries .read 0x08 v .rdLen ∧
    Carries .read 0x0C v .rdCtrl ∧ Carries .read 0x10 v .rdStatus ∧ Carries .read 0x14 v .rdResult ∧
    Carries .read 0x18 v (.rdRsvd .x18) ∧ Carries .read 0x1C v (.rdRsvd .x1C) ∧
    exec .rdSrc s = .next { s with reply := some s.regs.src } ∧
    exec .rdDst s = .next { s with reply := some s.regs.dst } ∧
    exec .rdLen s = .next { s with reply := some s.regs.len } ∧
    exec .rdCtrl s = .next { s with reply := some 0x00000000#32 } ∧
    exec .rdStatus s = .next { s with reply := some s.regs.status } ∧
    exec .rdResult s = .next { s with reply := some s.regs.result } ∧
    exec (.rdRsvd off) s = .next { s with reply := some 0x00000000#32 }

/-- R115. NOP changes nothing, whatever its ignored bits; a CTRL write of any even word is one. -/
def Obligations.NopChangesNothing : Prop :=
  ∀ s : State, (∀ ignored, exec (.nop ignored) s = .next s) ∧
    ∀ w : Word, w.getLsbD 0 = false → exec (.wrCtrl w) s = .next s

/-- R116, R229. A rejected command writes ERR 4 and its reason, DONE and RESULT zero, and nothing else. -/
def Obligations.BadCommandIsRecorded : Prop :=
  ∀ s : State,
    (∀ op, exec (.badcmdOp op) s = .next { s with regs := endsWith s.regs 0x00000114#32 0#32 }) ∧
    (∀ rsvd op, exec (.badcmdBits rsvd op) s = .next { s with regs := endsWith s.regs 0x00000124#32 0#32 }) ∧
    ∀ w : Word, w.getLsbD 0 = true →
      (w.extractLsb' 3 29 ≠ 0#29 →
        exec (.wrCtrl w) s = .next { s with regs := endsWith s.regs 0x00000124#32 0#32 }) ∧
      (w.extractLsb' 3 29 = 0#29 → w.getLsbD 2 = true →
        exec (.wrCtrl w) s = .next { s with regs := endsWith s.regs 0x00000114#32 0#32 })

/-- R114. A write at offset 0x0C performs the command its data word decodes to. -/
def Obligations.ControlWritePerformsItsCommand : Prop :=
  ∀ (w : Word) (s : State),
    Carries .write 0x0C w (.wrCtrl w) ∧
    exec (.wrCtrl w) s = exec (decodeCtrl w) s ∧
    (decodeCommand w = .nop → exec (.wrCtrl w) s = .next s) ∧
    (∀ r, decodeCommand w = .badcmd r →
      exec (.wrCtrl w) s = .next (finish (.badCommand r) 0#32 s)) ∧
    (decodeCommand w = .encode → exec (.wrCtrl w) s = exec .encode s) ∧
    (decodeCommand w = .decode → exec (.wrCtrl w) s = exec .decode s)

/-- R34. STATUS and RESULT change only at a command's completion: a NOP and every register access other than a command leave
them, and memory, as they are; a read leaves every register, and a write the registers it does not name. -/
def Obligations.OnlyCommandsChangeStatusAndResult : Prop :=
  ∀ (i : Instr) (s t : State), exec i s = .next t →
    (∀ op, i ≠ .badcmdOp op) → (∀ r o, i ≠ .badcmdBits r o) → i ≠ .encode → i ≠ .decode →
    (∀ w, i = .wrCtrl w → decodeCommand w = .nop) →
    t.regs.status = s.regs.status ∧ t.regs.result = s.regs.result ∧ SameBytes s.mem t.mem ∧
    ((∀ v, i ≠ .wrSrc v) → t.regs.src = s.regs.src) ∧
    ((∀ v, i ≠ .wrDst v) → t.regs.dst = s.regs.dst) ∧
    ((∀ v, i ≠ .wrLen v) → t.regs.len = s.regs.len)

/-! ## Commands in general -/

/-- R223, R226. The first cause that holds is reported, in the order DST_UNSET, SRC_UNSET, SRC_IS_DST, LEN_NOT_POSITIVE, with
RESULT zero; no byte of memory and no other register changes. -/
def Obligations.ArgumentCausesAreReportedInOrder : Prop :=
  ∀ (s : State) (i : Instr), i = .encode ∨ i = .decode →
    (s.regs.dst = 0#32 → exec i s = .next { s with regs := endsWith s.regs 0x00000111#32 0#32 }) ∧
    (s.regs.dst ≠ 0#32 → s.regs.src = 0#32 →
      exec i s = .next { s with regs := endsWith s.regs 0x00000121#32 0#32 }) ∧
    (s.regs.dst ≠ 0#32 → s.regs.src = s.regs.dst →
      exec i s = .next { s with regs := endsWith s.regs 0x00000131#32 0#32 }) ∧
    (s.regs.dst ≠ 0#32 → s.regs.src ≠ 0#32 → s.regs.src ≠ s.regs.dst → s.regs.len.toInt ≤ 0 →
      exec i s = .next { s with regs := endsWith s.regs 0x00000141#32 0#32 }) ∧
    (ArgsValid s → checkArgs (operands s) = none)

/-- R262. A command issued with the registers' reset values fails with DST_UNSET. -/
def Obligations.CommandOnResetRegistersFails : Prop :=
  ∀ s : State, s.regs = Regs.reset →
    exec .encode s = .next { s with regs := ⟨0#32, 0#32, 0#32, 0x00000111#32, 0#32⟩ } ∧
    exec .decode s = .next { s with regs := ⟨0#32, 0#32, 0#32, 0x00000111#32, 0#32⟩ }

/-- A command leaves SRC, DST and LEN unchanged (R33). The platform, the queue, the reply and the pending accesses, which it
leaves too, are the model's own fields (log 4, log 1, log 3, log 10). -/
def Obligations.CommandsKeepTheArguments : Prop :=
  ∀ (i : Instr) (s t : State), exec i s = .next t →
    i = .encode ∨ i = .decode ∨ (∃ b, i = .nop b) ∨ (∃ op, i = .badcmdOp op) ∨
      (∃ r o, i = .badcmdBits r o) ∨ (∃ w, i = .wrCtrl w) →
    t.regs.src = s.regs.src ∧ t.regs.dst = s.regs.dst ∧ t.regs.len = s.regs.len ∧
    t.plat = s.plat ∧ t.inbox = s.inbox ∧ t.reply = s.reply ∧ t.concurrent = s.concurrent

/-- R57. The bytes a command may change are those of its write region; where the arguments are not valid, none. -/
def Obligations.CommandsChangeOnlyTheirWriteRegion : Prop :=
  ∀ s t : State,
    (exec .encode s = .next t → ∀ a, (encodeWriteRegion (operands s) s).contains a = false →
      Memory.read t.mem a = Memory.read s.mem a) ∧
    (exec .decode s = .next t → ∀ a, (decodeWriteRegion (operands s)).contains a = false →
      Memory.read t.mem a = Memory.read s.mem a) ∧
    ((∃ r, checkArgs (operands s) = some r) → exec .encode s = .next t ∨ exec .decode s = .next t →
      SameBytes s.mem t.mem) ∧
    ((∃ op, exec (.badcmdOp op) s = .next t) ∨ (∃ r o, exec (.badcmdBits r o) s = .next t) ∨
      (∃ b, exec (.nop b) s = .next t) → SameBytes s.mem t.mem)

/-- R221, R27. The STATUS words each command can leave; RESULT is zero with every one but success. -/
def Obligations.CommandsLeaveOnlyTheirOutcomes : Prop :=
  ∀ s t : State,
    (exec .encode s = .next t →
      t.regs.status ∈ [0x00000100#32, 0x00000111#32, 0x00000121#32, 0x00000131#32, 0x00000141#32,
        0x00000113#32, 0x00000123#32] ∧
      (t.regs.status ≠ 0x00000100#32 → t.regs.result = 0#32)) ∧
    (exec .decode s = .next t →
      t.regs.status ∈ [0x00000100#32, 0x00000111#32, 0x00000121#32, 0x00000131#32, 0x00000141#32,
        0x00000112#32, 0x00000122#32, 0x00000113#32, 0x00000123#32] ∧
      (t.regs.status ≠ 0x00000100#32 → t.regs.result = 0#32))

/-- R58, R60, R61, R64. A command with valid arguments whose regions break one of the host's duties is undefined: a fault,
by the first of them in the order wrap, side-effecting region, overlap, concurrent access (log 8: the order is the model's);
one whose regions break none completes. -/
def Obligations.UndefinedCommandsFault : Prop :=
  ∀ (s : State) (i : Instr) (wr : Region),
    (i = .encode ∧ wr = encodeArea s) ∨ (i = .decode ∧ wr = decodeArea s) → ArgsValid s →
    let fits := (readArea s).base + (readArea s).size ≤ 2 ^ 32 ∧ wr.base + wr.size ≤ 2 ^ 32
    let ordinary := OrdinaryArea s.plat (readArea s) ∧ OrdinaryArea s.plat wr
    let apart := ∀ a, ¬ (within (readArea s) a ∧ within wr a)
    let undisturbed := ∀ e ∈ s.concurrent, Undisturbing (readArea s) wr e
    (¬ fits → exec i s = .fault .addressWrap) ∧
    (fits → ¬ ordinary → exec i s = .fault .sideEffectingRegion) ∧
    (fits → ordinary → ¬ apart → exec i s = .fault .overlap) ∧
    (fits → ordinary → apart → ¬ undisturbed → exec i s = .fault .concurrentAccess) ∧
    (fits → ordinary → apart → undisturbed → ∃ t, exec i s = .next t)

/-- R270. Every command ends: a CTRL write with any word completes, unless it starts a command with valid arguments whose
regions are undefined; that includes invalid arguments, a refused access and a zero in DECODE's source. Where it starts a
defined command on memory the platform answers, it ends in success, DECODE if the source holds no zero. -/
def Obligations.ControlWritesComplete : Prop :=
  ∀ (w : Word) (s : State),
    (decodeCommand w = .nop → exec (.wrCtrl w) s = .next s) ∧
    (∀ r, decodeCommand w = .badcmd r → ∃ t, exec (.wrCtrl w) s = .next t ∧
      t.regs.result = 0#32 ∧ statusErr t.regs.status = 4#4) ∧
    (decodeCommand w = .encode → ¬ ArgsValid s ∨ RegionsDefined (readArea s) (encodeArea s) s →
      ∃ t, exec (.wrCtrl w) s = .next t) ∧
    (decodeCommand w = .decode → ¬ ArgsValid s ∨ RegionsDefined (readArea s) (decodeArea s) s →
      ∃ t, exec (.wrCtrl w) s = .next t) ∧
    (decodeCommand w = .encode → ArgsValid s → RegionsDefined (readArea s) (encodeArea s) s →
      BusFine (readArea s) (encodeArea s) s →
      ∃ t, exec (.wrCtrl w) s = .next t ∧ t.regs.status = 0x00000100#32 ∧
        t.regs.result.toNat = segmentLength (source s)) ∧
    (decodeCommand w = .decode → ArgsValid s → RegionsDefined (readArea s) (decodeArea s) s →
      BusFine (readArea s) (decodeArea s) s → 0#8 ∉ source s →
      ∃ t, exec (.wrCtrl w) s = .next t ∧ t.regs.status = 0x00000100#32 ∧
        t.regs.result.toNat < (source s).length) ∧
    ∀ r, exec (.wrCtrl w) s ≠ .refused r

/-! ## ENCODE -/

/-- R148, R145. ENCODE completes, and writes the segment form of the source bytes at DST, and no other byte; STATUS reads
success and RESULT is the number of bytes written. -/
def Obligations.EncodeWritesTheSegmentForm : Prop :=
  ∀ s : State, ArgsValid s → RegionsDefined (readArea s) (encodeArea s) s →
    BusFine (readArea s) (encodeArea s) s →
    ∃ m, exec .encode s = .next { s with
        mem := m
        regs := endsWith s.regs 0x00000100#32 (BitVec.ofNat 32 (segmentForm (source s)).length) } ∧
      (segmentForm (source s)).length < 2 ^ 32 ∧
      HoldsBytes m s.regs.dst.toNat (segmentForm (source s)) ∧
      SameOutside ⟨s.regs.dst.toNat, (segmentForm (source s)).length⟩ s.mem m

/-- R147. The exact length of the output and its bounds. -/
def Obligations.EncodeResultIsTheExactLength : Prop :=
  ∀ s : State, ArgsValid s → RegionsDefined (readArea s) (encodeArea s) s →
    BusFine (readArea s) (encodeArea s) s →
    let n := (source s).length
    ∃ t, exec .encode s = .next t ∧ t.regs.status = 0x00000100#32 ∧
      t.regs.result.toNat = n + 1 + ((segments (source s)).map fun x => x.length / 254).sum ∧
      n + 1 ≤ t.regs.result.toNat ∧ t.regs.result.toNat ≤ n + 1 + n / 254 ∧
      n + 1 + n / 254 ≤ n + (n + 253) / 254 + 1

/-- R146. Every byte ENCODE writes is non-zero. -/
def Obligations.EncodeOutputHoldsNoZero : Prop :=
  ∀ s : State, ArgsValid s → RegionsDefined (readArea s) (encodeArea s) s →
    BusFine (readArea s) (encodeArea s) s →
    ∃ t, exec .encode s = .next t ∧ t.regs.status = 0x00000100#32 ∧
      ∀ a, s.regs.dst.toNat ≤ a → a < s.regs.dst.toNat + t.regs.result.toNat →
        Memory.read t.mem a ≠ 0x00#8

/-- R149. All-zero input of length L gives L + 1 bytes, each 1. -/
def Obligations.EncodeOfZerosIsOnes : Prop :=
  ∀ s : State, ArgsValid s → (∀ b ∈ source s, b = 0x00#8) →
    RegionsDefined (readArea s) ⟨s.regs.dst.toNat, (source s).length + 1⟩ s →
    BusFine (readArea s) ⟨s.regs.dst.toNat, (source s).length + 1⟩ s →
    ∃ t, exec .encode s = .next t ∧ t.regs.status = 0x00000100#32 ∧
      t.regs.result.toNat = (source s).length + 1 ∧
      HoldsBytes t.mem s.regs.dst.toNat (List.replicate ((source s).length + 1) 0x01#8)

/-- R150. Zero-free input: one block up to 253 bytes, a full block and an empty one at 254, `EncSeg` from 255 on. -/
def Obligations.EncodeOfZeroFreeInput : Prop :=
  ∀ s : State, ArgsValid s → 0x00#8 ∉ source s →
    RegionsDefined (readArea s) (encodeArea s) s → BusFine (readArea s) (encodeArea s) s →
    let x := source s
    ∃ t, exec .encode s = .next t ∧ t.regs.status = 0x00000100#32 ∧
      (x.length ≤ 253 → t.regs.result.toNat = x.length + 1 ∧
        HoldsBytes t.mem s.regs.dst.toNat (BitVec.ofNat 8 (x.length + 1) :: x)) ∧
      (x.length = 254 → t.regs.result.toNat = 256 ∧
        HoldsBytes t.mem s.regs.dst.toNat (0xFF#8 :: x ++ [0x01#8])) ∧
      (255 ≤ x.length → HoldsBytes t.mem s.regs.dst.toNat (encSeg x))

/-- R151. ENCODE reads each source byte once, in order, and writes each byte of its output once, and no other. -/
def Obligations.EncodeAccessesEachByteOnce : Prop :=
  ∀ (src dst : Nat) (xs : List Byte),
    readAddresses (encodeRun src dst xs).trace = (List.range xs.length).map (fun i => src + i) ∧
    (writtenAddresses (encodeRun src dst xs).trace).Perm
      ((List.range (encodedLength xs)).map fun j => dst + j)

/-! ## DECODE -/

/-- R188, R192. DECODE of a zero-free source completes: the source is tiled by blocks, and their literals, with a zero after
every block but the last whose overhead byte is not 0xFF, are written at DST; no other byte changes. -/
def Obligations.DecodeWritesTheDecodedBlocks : Prop :=
  ∀ s : State, ArgsValid s → RegionsDefined (readArea s) (decodeArea s) s →
    BusFine (readArea s) (decodeArea s) s → 0x00#8 ∉ source s →
    ∃ bs m, Tiles bs ∧ blockBytes bs = source s ∧
      exec .decode s = .next { s with
        mem := m
        regs := endsWith s.regs 0x00000100#32 (BitVec.ofNat 32 (decodedLength bs)) } ∧
      (decodedBlocks bs).length = decodedLength bs ∧ decodedLength bs ≤ (source s).length - 1 ∧
      HoldsBytes m s.regs.dst.toNat (decodedBlocks bs) ∧
      SameOutside ⟨s.regs.dst.toNat, decodedLength bs⟩ s.mem m

/-- R190. A one-byte non-zero input decodes to nothing and succeeds; ENCODE never writes so short an output. -/
def Obligations.OneByteInputDecodesToNothing : Prop :=
  (∀ (s : State) (c : Byte), ArgsValid s → RegionsDefined (readArea s) (decodeArea s) s →
    BusFine (readArea s) (decodeArea s) s → source s = [c] → c ≠ 0x00#8 →
    exec .decode s = .next { s with regs := endsWith s.regs 0x00000100#32 0#32 }) ∧
  ∀ s t : State, exec .encode s = .next t → t.regs.status = 0x00000100#32 → 2 ≤ t.regs.result.toNat

/-- R182, R189. An overhead byte that promises more literals than remain is clamped: the bytes that do remain are the output,
with no trailing zero. -/
def Obligations.TruncatedBlockIsClamped : Prop :=
  ∀ (s : State) (c : Byte) (lits : List Byte), ArgsValid s →
    RegionsDefined (readArea s) (decodeArea s) s → BusFine (readArea s) (decodeArea s) s →
    source s = c :: lits → c ≠ 0x00#8 → 0x00#8 ∉ lits → lits.length ≤ c.toNat - 1 →
    ∃ t, exec .decode s = .next t ∧ t.regs.status = 0x00000100#32 ∧
      t.regs.result.toNat = lits.length ∧ HoldsBytes t.mem s.regs.dst.toNat lits ∧
      SameOutside ⟨s.regs.dst.toNat, lits.length⟩ s.mem t.mem

/-- R187. DECODE fails with MALFORMED_STREAM exactly when its source holds a zero; the reason is ZERO_OVERHEAD where the first
zero stands in the place of an overhead byte, ZERO_LITERAL where it stands in a literal run. -/
def Obligations.DecodeFailsExactlyOnAZero : Prop :=
  ∀ s : State, ArgsValid s → RegionsDefined (readArea s) (decodeArea s) s →
    BusFine (readArea s) (decodeArea s) s →
    ∃ t, exec .decode s = .next t ∧
      (statusErr t.regs.status = 2#4 ↔ 0x00#8 ∈ source s) ∧
      ∀ p q, source s = p ++ 0x00#8 :: q → 0x00#8 ∉ p →
        (BlockBoundary p → t.regs.status = 0x00000112#32) ∧
        (¬ BlockBoundary p → t.regs.status = 0x00000122#32)

/-- R191, R227. After MALFORMED_STREAM every byte outside `[dst, dst + n)` is unchanged, the source bytes among them, and
RESULT is zero; the bytes inside are unspecified, so nothing is said of them. -/
def Obligations.MalformedDecodeKeepsTheRest : Prop :=
  ∀ s : State, ArgsValid s → RegionsDefined (readArea s) (decodeArea s) s →
    BusFine (readArea s) (decodeArea s) s → 0x00#8 ∈ source s →
    ∃ t, exec .decode s = .next t ∧ statusErr t.regs.status = 2#4 ∧
      t.regs = endsWith s.regs t.regs.status 0#32 ∧
      SameOutside (decodeArea s) s.mem t.mem ∧ source t = source s

/-- R195. DECODE is not injective: a full block that ends the input and the same block with an empty one after it decode to the
same bytes. -/
def Obligations.DecodeIsNotInjective : Prop :=
  ∀ (s u : State) (a : List Byte), a.length = 254 → 0x00#8 ∉ a →
    source s = 0xFF#8 :: a → source u = 0xFF#8 :: (a ++ [0x01#8]) →
    (ArgsValid s ∧ RegionsDefined (readArea s) (decodeArea s) s ∧ BusFine (readArea s) (decodeArea s) s) →
    (ArgsValid u ∧ RegionsDefined (readArea u) (decodeArea u) u ∧ BusFine (readArea u) (decodeArea u) u) →
    ∃ t v, exec .decode s = .next t ∧ exec .decode u = .next v ∧
      t.regs.result = 254#32 ∧ v.regs.result = 254#32 ∧
      HoldsBytes t.mem s.regs.dst.toNat a ∧ HoldsBytes v.mem u.regs.dst.toNat a

/-- R193, R197. DECODE reads source bytes in order, each at most once, up to the first zero or the end, and writes output bytes
in order, each once, at most `n - 1` of them; when it succeeds, RESULT of them. -/
def Obligations.DecodeAccessesBytesInOrder : Prop :=
  ∀ (src dst : Nat) (ys : List Byte), ys ≠ [] →
    readAddresses (decodeRun src dst ys).trace = (List.range (readSpan ys)).map (fun i => src + i) ∧
    ∃ w, w < ys.length ∧
      writtenAddresses (decodeRun src dst ys).trace = (List.range w).map (fun j => dst + j) ∧
      ∀ r, (decodeRun src dst ys).ending = .success r → r = w ∧ readSpan ys = ys.length

/-! ## Both commands -/

/-- R155, R196. Round trip: where ENCODE succeeds, DECODE of its output to any destination that its arguments and regions allow
succeeds, writes exactly the raw bytes, and RESULT is their number. -/
def Obligations.DecodeUndoesEncode : Prop :=
  ∀ (s : State) (d : Word), ArgsValid s → RegionsDefined (readArea s) (encodeArea s) s →
    BusFine (readArea s) (encodeArea s) s →
    ∃ t, exec .encode s = .next t ∧ t.regs.status = 0x00000100#32 ∧
      let u := withArgs t s.regs.dst d t.regs.result
      (ArgsValid u → RegionsDefined (readArea u) (decodeArea u) u → BusFine (readArea u) (decodeArea u) u →
        ∃ v, exec .decode u = .next v ∧ v.regs.status = 0x00000100#32 ∧ v.regs.result = s.regs.len ∧
          HoldsBytes v.mem d.toNat (source s) ∧
          SameOutside ⟨d.toNat, (source s).length⟩ t.mem v.mem)

/-- R228, for ENCODE, which accesses every byte of its two regions: a refused read is reported as READ, a refused write as
WRITE, either where both occur; RESULT is zero and no byte outside the write region changes. -/
def Obligations.EncodeReportsBusErrors : Prop :=
  ∀ s : State, ArgsValid s → RegionsDefined (readArea s) (encodeArea s) s →
    let badRead := ∃ a, within (readArea s) a ∧ s.plat.busOk a .read = false
    let badWrite := ∃ a, within (encodeArea s) a ∧ s.plat.busOk a .write = false
    badRead ∨ badWrite →
    ∃ t, exec .encode s = .next t ∧
      (badRead ∧ ¬ badWrite → t.regs = endsWith s.regs 0x00000113#32 0#32) ∧
      (¬ badRead ∧ badWrite → t.regs = endsWith s.regs 0x00000123#32 0#32) ∧
      (badRead ∧ badWrite → t.regs = endsWith s.regs 0x00000113#32 0#32 ∨
        t.regs = endsWith s.regs 0x00000123#32 0#32) ∧
      SameOutside (encodeArea s) s.mem t.mem

/-- R228, for DECODE: a refused read counts up to the first zero byte and not after it, a refused write among the bytes the run
writes and no other of the write region. The addresses written are those of the run (R180); for a zero-free source they are the
bytes of its decoded blocks. -/
def Obligations.DecodeReportsBusErrors : Prop :=
  ∀ s : State, ArgsValid s → RegionsDefined (readArea s) (decodeArea s) s →
    let written := writtenAddresses (decodeRun s.regs.src.toNat s.regs.dst.toNat (source s)).trace
    let badRead := ∃ i, i < readSpan (source s) ∧ s.plat.busOk (s.regs.src.toNat + i) .read = false
    let badWrite := ∃ a ∈ written, s.plat.busOk a .write = false
    ∃ t, exec .decode s = .next t ∧ SameOutside (decodeArea s) s.mem t.mem ∧
      (badRead ∧ ¬ badWrite → t.regs = endsWith s.regs 0x00000113#32 0#32) ∧
      (¬ badRead ∧ badWrite → t.regs = endsWith s.regs 0x00000123#32 0#32) ∧
      (badRead ∧ badWrite → t.regs = endsWith s.regs 0x00000113#32 0#32 ∨
        t.regs = endsWith s.regs 0x00000123#32 0#32) ∧
      (¬ badRead ∧ ¬ badWrite → statusErr t.regs.status ≠ 3#4) ∧
      (∀ a ∈ written, within (decodeArea s) a) ∧
      ∀ bs, Tiles bs → blockBytes bs = source s →
        ∀ a, a ∈ written ↔ s.regs.dst.toNat ≤ a ∧ a < s.regs.dst.toNat + decodedLength bs

/-- R54. The order of a command's writes is not observable: in any order they leave the same memory. -/
def Obligations.WriteOrderIsNotObservable : Prop :=
  ∀ (m : Memory) (src dst : Nat) (xs : List Byte) (es : List EngineAccess), Memory.wf m = true → xs ≠ [] →
    (dst + encodedLength xs ≤ 2 ^ 32 → es.Perm (encodeRun src dst xs).trace →
      applyWrites m es = applyWrites m (encodeRun src dst xs).trace) ∧
    (dst + xs.length ≤ 2 ^ 32 → es.Perm (decodeRun src dst xs).trace →
      applyWrites m es = applyWrites m (decodeRun src dst xs).trace)

/-- R33. A command that succeeded may be repeated by writing CTRL again: the whole state stays as the first run left it. -/
def Obligations.RepeatedCommandLeavesTheSameState : Prop :=
  ∀ (s t : State) (i : Instr), i = .encode ∨ i = .decode → Memory.wf s.mem = true →
    exec i s = .next t → t.regs.status = 0x00000100#32 → exec i t = .next t

/-- R20. A command's result depends on its arguments and its source bytes alone: not on what STATUS and RESULT held, nor on any
other byte of memory. -/
def Obligations.ResultDependsOnArgumentsAndSourceOnly : Prop :=
  ∀ (s u t : State) (i : Instr), i = .encode ∨ i = .decode →
    u.regs.src = s.regs.src → u.regs.dst = s.regs.dst → u.regs.len = s.regs.len →
    u.plat = s.plat → u.concurrent = s.concurrent → source u = source s →
    exec i s = .next t → t.regs.status = 0x00000100#32 →
    ∃ v, exec i u = .next v ∧ v.regs = t.regs ∧
      ∀ k, k < t.regs.result.toNat →
        Memory.read v.mem (s.regs.dst.toNat + k) = Memory.read t.mem (s.regs.dst.toNat + k)

/-! ## Reset during an access, other agents, several blocks -/

/-- A reset during ENCODE or DECODE abandons it (R261): the registers take their reset values, nothing is returned, and no byte
outside the command's write region differs from what the stores of other agents (log 10) leave. A reset during an undefined
command is that command's fault, and one during an access that performs no command with valid arguments, or that is not the
block's, resets the registers alone (log 19: the model's reading); an access the block refuses is refused (R110). The queue is
kept (log 12). -/
def Obligations.ResetDuringAnAccessAbandonsIt : Prop :=
  ∀ (s : State) (a : BusAccess) (others : List AgentAccess) (rest : List HostEvent),
    s.inbox = .resetDuring a others :: rest →
    let during := { s with inbox := rest, reply := none, concurrent := others }
    let cleared :=
      { s with inbox := rest, reply := none, concurrent := [], regs := ⟨0#32, 0#32, 0#32, 0#32, 0#32⟩ }
    (∀ w wr, decodeBus s.plat.regBase a = .instr (.wrCtrl w) →
      decodeCommand w = .encode ∧ wr = encodeArea s ∨ decodeCommand w = .decode ∧ wr = decodeArea s → ArgsValid s →
      (RegionsDefined (readArea s) wr during → ∀ u, agentAccesses cleared others = .next u →
        ∃ t, step s = .next t ∧ t.regs = ⟨0#32, 0#32, 0#32, 0#32, 0#32⟩ ∧ t.reply = none ∧
          t.inbox = rest ∧ SameOutside wr u.mem t.mem) ∧
      (¬ RegionsDefined (readArea s) wr during →
        ∃ f, exec (.wrCtrl w) during = .fault f ∧ step s = .fault f)) ∧
    (∀ i, decodeBus s.plat.regBase a = .instr i →
      (∀ w, i = .wrCtrl w → (decodeCommand w ≠ .encode ∧ decodeCommand w ≠ .decode) ∨ ¬ ArgsValid s) →
      step s = agentAccesses cleared others) ∧
    (decodeBus s.plat.regBase a = .notOurs → step s = agentAccesses cleared others) ∧
    (∀ e, decodeBus s.plat.regBase a = .rejected e → step s = .refused .accessSize) ∧
    (others = [] → agentAccesses cleared others = .next cleared)

/-- R63. A store to ordinary memory between accesses is what a later read returns, and it changes no other byte and no
register; a store to the block's own window, or to a device, is refused (log 11). -/
def Obligations.StoresBetweenAccessesAreVisible : Prop :=
  ∀ (s : State) (a : Word) (v : Byte) (rest : List HostEvent), s.inbox = .store a v :: rest →
    (¬ within s.plat.window a.toNat → (∀ d ∈ s.plat.devices, ¬ within d a.toNat) →
      ∃ t, step s = .next t ∧ Memory.read t.mem a.toNat = v ∧
        SameOutside ⟨a.toNat, 1⟩ s.mem t.mem ∧ t.regs = s.regs ∧ t.inbox = rest) ∧
    (within s.plat.window a.toNat → step s = .refused .accessSize) ∧
    (¬ within s.plat.window a.toNat → (∃ d ∈ s.plat.devices, within d a.toNat) →
      step s = .refused .deviceStore)

/-- Other agents that keep to R64 do not disturb an ENCODE: its outcome and its output are those of the segment form of the
source bytes, and the source is as it was. That their accesses travel with the host's is the model's choice (log 10), and so is
the premise that they store to ordinary memory, another store being refused (log 11). A read of the block's window is refused
too (R89, R110), so the premise keeps reads off it; one of a device goes by (log 23). DECODE is in the next statement. -/
def Obligations.UndisturbingAgentsDoNotDisturbEncode : Prop :=
  ∀ (s : State) (a : BusAccess) (others : List AgentAccess) (rest : List HostEvent) (w : Word),
    s.inbox = .access a others :: rest → decodeBus s.plat.regBase a = .instr (.wrCtrl w) →
    decodeCommand w = .encode → ArgsValid s →
    RegionsDefined (readArea s) (encodeArea s) { s with concurrent := others } →
    BusFine (readArea s) (encodeArea s) s →
    (∀ b, AgentAccess.read b ∈ others → ¬ within s.plat.window b.toNat) →
    (∀ b v, AgentAccess.write b v ∈ others →
      ¬ within s.plat.window b.toNat ∧ ∀ d ∈ s.plat.devices, ¬ within d b.toNat) →
    ∃ t, step s = .next t ∧
      t.regs = endsWith s.regs 0x00000100#32 (BitVec.ofNat 32 (segmentForm (source s)).length) ∧
      HoldsBytes t.mem s.regs.dst.toNat (segmentForm (source s)) ∧ source t = source s

/-- Other agents that keep to R64 do not disturb a command, ENCODE or DECODE, however it ends: the registers and the bytes of
both its regions are those it leaves with no other agent active (R89, R110, log 10, log 11 and log 23, as above). -/
def Obligations.UndisturbedCommandsEndAsIfAlone : Prop :=
  ∀ (s : State) (a : BusAccess) (others : List AgentAccess) (rest : List HostEvent) (w : Word) (wr : Region),
    s.inbox = .access a others :: rest → decodeBus s.plat.regBase a = .instr (.wrCtrl w) →
    decodeCommand w = .encode ∧ wr = encodeArea s ∨ decodeCommand w = .decode ∧ wr = decodeArea s → ArgsValid s →
    RegionsDefined (readArea s) wr { s with concurrent := others } →
    (∀ b, AgentAccess.read b ∈ others → ¬ within s.plat.window b.toNat) →
    (∀ b v, AgentAccess.write b v ∈ others →
      ¬ within s.plat.window b.toNat ∧ ∀ d ∈ s.plat.devices, ¬ within d b.toNat) →
    ∃ t u, step s = .next t ∧ exec (.wrCtrl w) { s with inbox := rest, reply := none, concurrent := [] } = .next u ∧
      t.regs = u.regs ∧ t.draws = u.draws ∧
      ∀ k, within (readArea s) k ∨ within wr k → Memory.read t.mem k = Memory.read u.mem k

/-- An access of a byte of the block's window by another agent is not a 32-bit access: the block refuses it, a read or a store
(R89, R110; log 10: it travels with the host's access, and is refused in its place after the block's own part; log 11). -/
def Obligations.AgentByteAccessesOfTheWindowAreRefused : Prop :=
  ∀ (s : State) (a : BusAccess) (others : List AgentAccess) (rest : List HostEvent) (b : Word),
    within s.plat.window b.toNat → s.inbox = .access a others :: rest →
    (.read b ∈ others ∨ (∃ v, .write b v ∈ others) → ∀ t, step s ≠ .next t) ∧
    ∀ (more : List AgentAccess) (i : Instr) (u : State), others = .read b :: more ∨ (∃ v, others = .write b v :: more) →
      decodeBus s.plat.regBase a = .instr i →
      exec i { s with inbox := rest, reply := none, concurrent := others } = .next u →
      step s = .refused .accessSize

/-- A step of one block changes no other block's registers, platform, queue or reply (R236). The system of blocks is the model's
choice (log 15), as is that a word access of another block's window stands in that block's own queue (log 24), and so is the count of unspecified values drawn, which the blocks share beside memory (log 6). -/
def Obligations.BlocksShareOnlyMemory : Prop :=
  ∀ (y z : System) (k : Nat), y.stepBlock k = .next z →
    z.blocks.length = y.blocks.length ∧ ∀ j, j ≠ k → z.blocks[j]? = y.blocks[j]?

/-- In a system an access of another block's window that is not an aligned 32-bit word is refused as well (R89, R110), whether it
is the host's, another agent's beside it, or a store between accesses (log 15, log 24: the system is the model's). -/
def Obligations.AccessesOfASiblingWindowAreRefused : Prop :=
  ∀ (y : System) (j k : Nat) (c b : Block) (e : HostEvent) (rest : List HostEvent),
    j ≠ k → y.blocks[j]? = some c → y.blocks[k]? = some b → b.inbox = e :: rest →
    (∀ a others, e = .access a others ∨ e = .resetDuring a others →
      (∃ r, decodeBus c.plat.regBase a = .rejected r) ∨
        (∃ x, (.read x ∈ others ∨ ∃ v, .write x v ∈ others) ∧ within c.plat.window x.toNat) →
      y.stepBlock k = .refused .accessSize) ∧
    ∀ x v, e = .store x v → within c.plat.window x.toNat → y.stepBlock k = .refused .accessSize

/-- Commands of two blocks that succeed on regions that do not meet need no coordination (R236): in either order they leave the
same registers and the same memory. That commands at one time are steps in some order is the model's choice (log 15). It is not
said of commands that fail: the order decides which free values the bytes of their write regions take (log 6). -/
def Obligations.DisjointCommandsOfTwoBlocksCommute : Prop :=
  ∀ (y yj yk : System) (j k : Nat) (bj bk : Block) (wj wk : Word) (restj restk : List HostEvent)
    (rrj wrj rrk wrk : Region),
    j ≠ k → Memory.wf y.mem = true → y.blocks[j]? = some bj → y.blocks[k]? = some bk →
    bj.inbox = .access (busAccess bj.plat.regBase (.ctrl wj)) [] :: restj →
    bk.inbox = .access (busAccess bk.plat.regBase (.ctrl wk)) [] :: restk →
    commandRegions (decodeCommand wj) (y.view bj) = some (rrj, wrj) →
    commandRegions (decodeCommand wk) (y.view bk) = some (rrk, wrk) →
    (∀ a, ¬ (within wrj a ∧ (within rrk a ∨ within wrk a))) → (∀ a, ¬ (within wrk a ∧ within rrj a)) →
    y.stepBlock j = .next yj → y.stepBlock k = .next yk →
    (∀ c, yj.blocks[j]? = some c → c.regs.status = 0x00000100#32) →
    (∀ c, yk.blocks[k]? = some c → c.regs.status = 0x00000100#32) →
    ∃ z, yj.stepBlock k = .next z ∧ yk.stepBlock j = .next z
end

