-- ==== Sys2Proof/Laws/State.lean ====
section
/-! SUPPORT. One lemma per field per update of the state, and what follows a step. -/

namespace Sys2Proof.Machine

@[simp] theorem answer_regs (s : State) (v : Word) : (answer s v).regs = s.regs := rfl
@[simp] theorem answer_mem (s : State) (v : Word) : (answer s v).mem = s.mem := rfl
@[simp] theorem answer_plat (s : State) (v : Word) : (answer s v).plat = s.plat := rfl
@[simp] theorem answer_inbox (s : State) (v : Word) : (answer s v).inbox = s.inbox := rfl
@[simp] theorem answer_reply (s : State) (v : Word) : (answer s v).reply = some v := rfl
@[simp] theorem answer_concurrent (s : State) (v : Word) : (answer s v).concurrent = s.concurrent := rfl
@[simp] theorem answer_draws (s : State) (v : Word) : (answer s v).draws = s.draws := rfl

@[simp] theorem finish_regs (c : Completion) (r : Word) (s : State) : (finish c r s).regs = { s.regs with status := c.status, result := r } := rfl
@[simp] theorem finish_mem (c : Completion) (r : Word) (s : State) : (finish c r s).mem = s.mem := rfl
@[simp] theorem finish_plat (c : Completion) (r : Word) (s : State) : (finish c r s).plat = s.plat := rfl
@[simp] theorem finish_inbox (c : Completion) (r : Word) (s : State) : (finish c r s).inbox = s.inbox := rfl
@[simp] theorem finish_reply (c : Completion) (r : Word) (s : State) : (finish c r s).reply = s.reply := rfl
@[simp] theorem finish_concurrent (c : Completion) (r : Word) (s : State) : (finish c r s).concurrent = s.concurrent := rfl
@[simp] theorem finish_draws (c : Completion) (r : Word) (s : State) : (finish c r s).draws = s.draws := rfl

@[simp] theorem havoc_regs (r : Region) (s : State) : (havoc r s).regs = s.regs := rfl
@[simp] theorem havoc_mem (r : Region) (s : State) : (havoc r s).mem = Memory.fillFree s.mem r.base s.draws r.size := rfl
@[simp] theorem havoc_plat (r : Region) (s : State) : (havoc r s).plat = s.plat := rfl
@[simp] theorem havoc_inbox (r : Region) (s : State) : (havoc r s).inbox = s.inbox := rfl
@[simp] theorem havoc_reply (r : Region) (s : State) : (havoc r s).reply = s.reply := rfl
@[simp] theorem havoc_concurrent (r : Region) (s : State) : (havoc r s).concurrent = s.concurrent := rfl
@[simp] theorem havoc_draws (r : Region) (s : State) : (havoc r s).draws = s.draws + r.size := rfl

@[simp] theorem blockReset_regs (s : State) : (blockReset s).regs = Regs.reset := rfl
@[simp] theorem blockReset_mem (s : State) : (blockReset s).mem = s.mem := rfl
@[simp] theorem blockReset_plat (s : State) : (blockReset s).plat = s.plat := rfl
@[simp] theorem blockReset_inbox (s : State) : (blockReset s).inbox = s.inbox := rfl
@[simp] theorem blockReset_reply (s : State) : (blockReset s).reply = none := rfl
@[simp] theorem blockReset_concurrent (s : State) : (blockReset s).concurrent = s.concurrent := rfl
@[simp] theorem blockReset_draws (s : State) : (blockReset s).draws = s.draws := rfl

@[simp] theorem takeEvent_regs (s : State) (rest : List HostEvent) : (takeEvent s rest).regs = s.regs := rfl
@[simp] theorem takeEvent_mem (s : State) (rest : List HostEvent) : (takeEvent s rest).mem = s.mem := rfl
@[simp] theorem takeEvent_plat (s : State) (rest : List HostEvent) : (takeEvent s rest).plat = s.plat := rfl
@[simp] theorem takeEvent_inbox (s : State) (rest : List HostEvent) : (takeEvent s rest).inbox = rest := rfl
@[simp] theorem takeEvent_reply (s : State) (rest : List HostEvent) : (takeEvent s rest).reply = none := rfl
@[simp] theorem takeEvent_concurrent (s : State) (rest : List HostEvent) : (takeEvent s rest).concurrent = s.concurrent := rfl
@[simp] theorem takeEvent_draws (s : State) (rest : List HostEvent) : (takeEvent s rest).draws = s.draws := rfl

@[simp] theorem pushEvent_regs (s : State) (e : HostEvent) : (pushEvent s e).regs = s.regs := rfl
@[simp] theorem pushEvent_mem (s : State) (e : HostEvent) : (pushEvent s e).mem = s.mem := rfl
@[simp] theorem pushEvent_plat (s : State) (e : HostEvent) : (pushEvent s e).plat = s.plat := rfl
@[simp] theorem pushEvent_inbox (s : State) (e : HostEvent) : (pushEvent s e).inbox = e :: s.inbox := rfl
@[simp] theorem pushEvent_reply (s : State) (e : HostEvent) : (pushEvent s e).reply = s.reply := rfl
@[simp] theorem pushEvent_concurrent (s : State) (e : HostEvent) : (pushEvent s e).concurrent = s.concurrent := rfl
@[simp] theorem pushEvent_draws (s : State) (e : HostEvent) : (pushEvent s e).draws = s.draws := rfl
@[simp] theorem writeSlot_mem (s : State) (v : Word) (k : Slot) : (writeSlot s v k).mem = s.mem := by
  cases k <;> rfl
@[simp] theorem writeSlot_plat (s : State) (v : Word) (k : Slot) : (writeSlot s v k).plat = s.plat := by
  cases k <;> rfl
@[simp] theorem writeSlot_inbox (s : State) (v : Word) (k : Slot) : (writeSlot s v k).inbox = s.inbox := by
  cases k <;> rfl
@[simp] theorem writeSlot_reply (s : State) (v : Word) (k : Slot) : (writeSlot s v k).reply = s.reply := by
  cases k <;> rfl
@[simp] theorem writeSlot_concurrent (s : State) (v : Word) (k : Slot) : (writeSlot s v k).concurrent = s.concurrent := by
  cases k <;> rfl
@[simp] theorem writeSlot_draws (s : State) (v : Word) (k : Slot) : (writeSlot s v k).draws = s.draws := by
  cases k <;> rfl
@[simp] theorem writeSlot_src (s : State) (v : Word) :
    (writeSlot s v .src).regs = { s.regs with src := v } := rfl
@[simp] theorem writeSlot_dst (s : State) (v : Word) :
    (writeSlot s v .dst).regs = { s.regs with dst := v } := rfl
@[simp] theorem writeSlot_len (s : State) (v : Word) :
    (writeSlot s v .len).regs = { s.regs with len := v } := rfl
/-- STATUS and RESULT are read-only to the host (R26, R27), whatever the slot. -/
@[simp] theorem writeSlot_status_kept (s : State) (v : Word) (k : Slot) :
    (writeSlot s v k).regs.status = s.regs.status := by
  cases k <;> rfl

@[simp] theorem writeSlot_result_kept (s : State) (v : Word) (k : Slot) :
    (writeSlot s v k).regs.result = s.regs.result := by
  cases k <;> rfl

/-- A write to a slot without writable storage is ignored (R25, R117 to R119). -/
@[simp] theorem writeSlot_reserved (s : State) (v : Word) (off : ReservedOffset) : writeSlot s v off.slot = s := by
  cases off <;> rfl

@[simp] theorem readSlot_reserved (s : State) (off : ReservedOffset) : readSlot s off.slot = 0x00000000#32 := by
  cases off <;> rfl

@[simp] theorem finish_src (c : Completion) (r : Word) (s : State) : (finish c r s).regs.src = s.regs.src := rfl
@[simp] theorem finish_dst (c : Completion) (r : Word) (s : State) : (finish c r s).regs.dst = s.regs.dst := rfl
@[simp] theorem finish_len (c : Completion) (r : Word) (s : State) : (finish c r s).regs.len = s.regs.len := rfl
@[simp] theorem finish_status (c : Completion) (r : Word) (s : State) : (finish c r s).regs.status = c.status := rfl
@[simp] theorem finish_result (c : Completion) (r : Word) (s : State) : (finish c r s).regs.result = r := rfl

@[simp] theorem andThen_next (s : State) (f : State → Result) : andThen (.next s) f = f s := rfl
@[simp] theorem andThen_fault (r : Fault) (f : State → Result) : andThen (.fault r) f = .fault r := rfl
@[simp] theorem andThen_refused (r : Refusal) (f : State → Result) : andThen (.refused r) f = .refused r := rfl

/-- What follows answers a next state exactly when both parts do. -/
theorem andThen_eq_next {o : Result} {f : State → Result} {t : State} :
    andThen o f = .next t ↔ ∃ s, o = .next s ∧ f s = .next t := by
  cases o <;> simp

/-- The operands are the registers' (R88): an operation that keeps the registers keeps them. -/
theorem operands_congr {s t : State} (h : s.regs = t.regs) : operands s = operands t := by
  simp [operands, h]

end Sys2Proof.Machine
end

