-- ==== Sys2Proof/Laws/Memory.lean ====
section
/-! SUPPORT. The laws of memory: a read after a write, the canonical form that every operation keeps, and that two canonical
memories that read the same are the same. -/

namespace Sys2Proof.Machine

/-! ## One read after one write -/

theorem Memory.read_erase (m : Memory) (a b : Nat) :
    Memory.read (Memory.erase m a) b = if b = a then Config.unwrittenByte else Memory.read m b := by
  induction m with
  | nil => simp [Memory.erase, Memory.read]
  | cons c rest ih =>
    simp only [Memory.erase] at ih
    by_cases hc : c.1 = a
    · simp only [Memory.erase, List.filter_cons, hc, bne_self_eq_false, Bool.false_eq_true, if_false, ih, Memory.read]
      split
      · rfl
      · rw [if_neg (fun h => ‹¬b = a› h.symm)]
    · simp only [Memory.erase, List.filter_cons, bne_iff_ne, ne_eq, hc, not_false_eq_true, if_true, Memory.read, ih]
      by_cases hb : c.1 = b
      · simp [hb, show ¬ b = a from hb ▸ hc]
      · simp [hb]

theorem Memory.read_insert (m : Memory) (a b : Nat) (v : Byte) (h : ∀ c ∈ m, c.1 ≠ a) :
    Memory.read (Memory.insert m a v) b = if b = a then v else Memory.read m b := by
  induction m with
  | nil => simp [Memory.insert, Memory.read, eq_comm]
  | cons c rest ih =>
    have hc : c.1 ≠ a := h c (by simp)
    have hr := ih fun d hd => h d (List.mem_cons_of_mem _ hd)
    unfold Memory.insert
    split
    · simp [Memory.read, eq_comm]
    · simp only [Memory.read, hr]
      by_cases hb : c.1 = b
      · simp [hb, show ¬ b = a from hb ▸ hc]
      · simp [hb]

theorem Memory.erase_ne {m : Memory} {a : Nat} : ∀ c ∈ Memory.erase m a, c.1 ≠ a := by
  intro c hc
  simpa [Memory.erase] using (List.mem_filter.mp hc).2

/-- A read after a write (R55, R56), of the same address or of another, in any memory. -/
theorem Memory.read_write (m : Memory) (a b : Nat) (v : Byte) :
    Memory.read (Memory.write m a v) b = if b = a then v else Memory.read m b := by
  unfold Memory.write
  split
  · rename_i h
    rw [Memory.read_erase, h]
  · rw [Memory.read_insert _ _ _ _ Memory.erase_ne, Memory.read_erase]
    split <;> rfl

@[simp] theorem Memory.read_write_same (m : Memory) (a : Nat) (v : Byte) :
    Memory.read (Memory.write m a v) a = v := by
  simp [Memory.read_write]

theorem Memory.read_write_other (m : Memory) {a b : Nat} (v : Byte) (h : b ≠ a) :
    Memory.read (Memory.write m a v) b = Memory.read m b := by
  simp [Memory.read_write, h]

/-! ## The canonical form -/

theorem Memory.wf_cons {c : Host.Cell} {rest : Memory} :
    Memory.wf (c :: rest) = true ↔
      c.1 < Config.addressLimit ∧ c.2 ≠ Config.unwrittenByte ∧ (∀ d ∈ rest, c.1 < d.1) ∧ Memory.wf rest = true := by
  simp [Memory.wf, and_assoc]

theorem Memory.wf_erase {m : Memory} (h : Memory.wf m = true) (a : Nat) : Memory.wf (Memory.erase m a) = true := by
  induction m with
  | nil => rfl
  | cons c rest ih =>
    obtain ⟨hl, hv, hs, hr⟩ := Memory.wf_cons.mp h
    by_cases hc : c.1 = a
    · simpa [Memory.erase, List.filter_cons, hc] using ih hr
    · have : Memory.erase (c :: rest) a = c :: Memory.erase rest a := by
        simp [Memory.erase, hc]
      rw [this, Memory.wf_cons]
      exact ⟨hl, hv, fun d hd => hs d (List.mem_of_mem_filter hd), ih hr⟩

theorem Memory.mem_insert {m : Memory} {a : Nat} {v : Byte} {d : Host.Cell} :
    d ∈ Memory.insert m a v ↔ d = (a, v) ∨ d ∈ m := by
  induction m with
  | nil => simp [Memory.insert]
  | cons c rest ih =>
    unfold Memory.insert
    split
    · simp
    · simp only [List.mem_cons, ih]
      tauto

theorem Memory.wf_insert {m : Memory} {a : Nat} {v : Byte} (h : Memory.wf m = true)
    (ha : a < Config.addressLimit) (hv : v ≠ Config.unwrittenByte) (hm : ∀ c ∈ m, c.1 ≠ a) :
    Memory.wf (Memory.insert m a v) = true := by
  induction m with
  | nil => simp [Memory.insert, Memory.wf, ha, hv]
  | cons c rest ih =>
    obtain ⟨hl, hc, hs, hr⟩ := Memory.wf_cons.mp h
    have hca : c.1 ≠ a := hm c (by simp)
    unfold Memory.insert
    split
    · rename_i hlt
      rw [Memory.wf_cons]
      refine ⟨ha, hv, ?_, h⟩
      intro d hd
      rcases List.mem_cons.mp hd with rfl | hd
      · exact hlt
      · exact lt_trans hlt (hs d hd)
    · rw [Memory.wf_cons]
      refine ⟨hl, hc, ?_, ih hr fun d hd => hm d (List.mem_cons_of_mem _ hd)⟩
      intro d hd
      rcases Memory.mem_insert.mp hd with rfl | hd
      · show c.1 < a
        omega
      · exact hs d hd

/-- A write to an address of the memory keeps the canonical form. -/
theorem Memory.wf_write {m : Memory} {a : Nat} (v : Byte) (h : Memory.wf m = true)
    (ha : a < Config.addressLimit) : Memory.wf (Memory.write m a v) = true := by
  unfold Memory.write
  split
  · exact Memory.wf_erase h a
  · exact Memory.wf_insert (Memory.wf_erase h a) ha ‹_› Memory.erase_ne

theorem Memory.read_of_lt {m : Memory} {a : Nat} (h : ∀ d ∈ m, a < d.1) :
    Memory.read m a = Config.unwrittenByte := by
  induction m with
  | nil => rfl
  | cons c rest ih =>
    have hc : a < c.1 := h c (by simp)
    rw [Memory.read, if_neg (by omega)]
    exact ih fun d hd => h d (List.mem_cons_of_mem _ hd)

/-- Two canonical memories that read the same at every address are the same. -/
theorem Memory.ext_of_wf {m k : Memory} (hm : Memory.wf m = true) (hk : Memory.wf k = true)
    (h : ∀ a, Memory.read m a = Memory.read k a) : m = k := by
  induction m generalizing k with
  | nil =>
    cases k with
    | nil => rfl
    | cons c rest =>
      obtain ⟨-, hv, -, -⟩ := Memory.wf_cons.mp hk
      have := h c.1
      simp only [Memory.read, if_true] at this
      exact absurd this.symm hv
  | cons c rest ih =>
    obtain ⟨-, hv, hs, hr⟩ := Memory.wf_cons.mp hm
    cases k with
    | nil =>
      have := h c.1
      simp only [Memory.read, if_true] at this
      exact absurd this hv
    | cons d rest' =>
      obtain ⟨-, hv', hs', hr'⟩ := Memory.wf_cons.mp hk
      have hcd : c.1 = d.1 := by
        rcases Nat.lt_trichotomy c.1 d.1 with hlt | heq | hlt
        · have := h c.1
          rw [Memory.read_of_lt (m := d :: rest') (by
            intro e he
            rcases List.mem_cons.mp he with rfl | he
            · exact hlt
            · exact lt_trans hlt (hs' e he))] at this
          simp only [Memory.read, if_true] at this
          exact absurd this hv
        · exact heq
        · have := h d.1
          rw [Memory.read_of_lt (m := c :: rest) (by
            intro e he
            rcases List.mem_cons.mp he with rfl | he
            · exact hlt
            · exact lt_trans hlt (hs e he))] at this
          simp only [Memory.read, if_true] at this
          exact absurd this.symm hv'
      have hval : c.2 = d.2 := by
        have := h c.1
        simpa [Memory.read, hcd] using this
      have hrest : rest = rest' := by
        refine ih hr hr' fun a => ?_
        by_cases ha : a = c.1
        · subst ha
          rw [Memory.read_of_lt hs, Memory.read_of_lt (hcd ▸ hs')]
        · have := h a
          simpa [Memory.read, show ¬ c.1 = a from fun e => ha e.symm,
            show ¬ d.1 = a from fun e => ha (hcd.trans e).symm] using this
      rw [hrest, show c = d from Prod.ext hcd hval]

/-! ## Buffers -/

@[simp] theorem Memory.readBytes_length (m : Memory) (a n : Nat) : (Memory.readBytes m a n).length = n := by
  induction n generalizing a with
  | zero => rfl
  | succ n ih => simp [Memory.readBytes, ih]

/-- Byte `i` of a buffer is at address `a + i` (R51). -/
theorem Memory.readBytes_get (m : Memory) (a n i : Nat) (h : i < (Memory.readBytes m a n).length) :
    (Memory.readBytes m a n)[i] = Memory.read m (a + i) := by
  induction n generalizing a i with
  | zero => simp at h
  | succ n ih =>
    cases i with
    | zero => rfl
    | succ i =>
      have := ih (a + 1) i (by simpa using h)
      simp only [Memory.readBytes, List.getElem_cons_succ]
      rw [this]
      congr 1
      omega

theorem Memory.readBytes_congr {m k : Memory} {a n : Nat}
    (h : ∀ b, a ≤ b → b < a + n → Memory.read m b = Memory.read k b) :
    Memory.readBytes m a n = Memory.readBytes k a n := by
  induction n generalizing a with
  | zero => rfl
  | succ n ih =>
    simp only [Memory.readBytes]
    rw [h a (by omega) (by omega), ih fun b h1 h2 => h b (by omega) (by omega)]

/-! ## Unspecified bytes -/

/-- Unspecified values in `n` bytes leave every other byte alone. -/
theorem Memory.read_fillFree_outside (m : Memory) (a k n b : Nat) (h : b < a ∨ a + n ≤ b) :
    Memory.read (Memory.fillFree m a k n) b = Memory.read m b := by
  induction n generalizing m a k with
  | zero => rfl
  | succ n ih =>
    simp only [Memory.fillFree]
    rw [ih _ _ _ (by omega), Memory.read_write_other _ _ (by omega)]

/-- Byte `i` of the filled run is draw number `k + i`. -/
theorem Memory.read_fillFree_inside (m : Memory) (a k n i : Nat) (h : i < n) :
    Memory.read (Memory.fillFree m a k n) (a + i) = Config.freeByte (k + i) := by
  induction n generalizing m a k i with
  | zero => omega
  | succ n ih =>
    simp only [Memory.fillFree]
    cases i with
    | zero => rw [Memory.read_fillFree_outside _ _ _ _ _ (by omega)]; simp
    | succ i =>
      have := ih (Memory.write m a (Config.freeByte k)) (a + 1) (k + 1) i (by omega)
      rw [show a + (i + 1) = a + 1 + i by omega, show k + (i + 1) = k + 1 + i by omega]
      exact this

theorem Memory.wf_fillFree {m : Memory} (a k n : Nat) (h : Memory.wf m = true)
    (ha : a + n ≤ Config.addressLimit) : Memory.wf (Memory.fillFree m a k n) = true := by
  induction n generalizing m a k with
  | zero => exact h
  | succ n ih => exact ih _ _ (Memory.wf_write _ h (by omega)) (by omega)

/-! ## Sequences of engine accesses -/

@[simp] theorem writtenAddresses_nil : writtenAddresses [] = [] := rfl
@[simp] theorem writtenAddresses_read (a : Nat) (es : List EngineAccess) :
    writtenAddresses (.read a :: es) = writtenAddresses es := rfl
@[simp] theorem writtenAddresses_write (a : Nat) (v : Byte) (es : List EngineAccess) :
    writtenAddresses (.write a v :: es) = a :: writtenAddresses es := rfl
@[simp] theorem writtenAddresses_append (es fs : List EngineAccess) :
    writtenAddresses (es ++ fs) = writtenAddresses es ++ writtenAddresses fs := by
  simp [writtenAddresses]

@[simp] theorem readAddresses_nil : readAddresses [] = [] := rfl
@[simp] theorem readAddresses_read (a : Nat) (es : List EngineAccess) :
    readAddresses (.read a :: es) = a :: readAddresses es := rfl
@[simp] theorem readAddresses_write (a : Nat) (v : Byte) (es : List EngineAccess) :
    readAddresses (.write a v :: es) = readAddresses es := rfl
@[simp] theorem readAddresses_append (es fs : List EngineAccess) :
    readAddresses (es ++ fs) = readAddresses es ++ readAddresses fs := by
  simp [readAddresses]

@[simp] theorem applyWrites_nil (m : Memory) : applyWrites m [] = m := rfl
@[simp] theorem applyWrites_read (m : Memory) (a : Nat) (es : List EngineAccess) :
    applyWrites m (.read a :: es) = applyWrites m es := rfl
@[simp] theorem applyWrites_write (m : Memory) (a : Nat) (v : Byte) (es : List EngineAccess) :
    applyWrites m (.write a v :: es) = applyWrites (Memory.write m a v) es := rfl

theorem applyWrites_append (m : Memory) (es fs : List EngineAccess) :
    applyWrites m (es ++ fs) = applyWrites (applyWrites m es) fs := by
  induction es generalizing m with
  | nil => rfl
  | cons e es ih => cases e <;> simp [ih]

/-- A byte no access writes keeps its value. -/
theorem read_applyWrites_outside (m : Memory) (es : List EngineAccess) (b : Nat)
    (h : b ∉ writtenAddresses es) : Memory.read (applyWrites m es) b = Memory.read m b := by
  induction es generalizing m with
  | nil => rfl
  | cons e es ih =>
    cases e with
    | read a => exact ih m h
    | write a v =>
      simp only [writtenAddresses_write, List.mem_cons, not_or] at h
      rw [applyWrites_write, ih _ h.2, Memory.read_write_other _ _ h.1]

theorem wf_applyWrites {m : Memory} (es : List EngineAccess) (h : Memory.wf m = true)
    (ha : ∀ a ∈ writtenAddresses es, a < Config.addressLimit) : Memory.wf (applyWrites m es) = true := by
  induction es generalizing m with
  | nil => exact h
  | cons e es ih =>
    cases e with
    | read a => exact ih h ha
    | write a v =>
      simp only [writtenAddresses_write, List.mem_cons, forall_eq_or_imp] at ha
      exact ih (Memory.wf_write _ h ha.1) ha.2

/-- A byte that a sequence writes once, with everything written there before it overwritten, holds the value written. -/
theorem read_applyWrites_last (m : Memory) (es fs : List EngineAccess) (a : Nat) (v : Byte)
    (h : a ∉ writtenAddresses fs) : Memory.read (applyWrites m (es ++ .write a v :: fs)) a = v := by
  rw [applyWrites_append, applyWrites_write, read_applyWrites_outside _ _ _ h, Memory.read_write_same]

/-- In a sequence that writes each address at most once, every write is still there at the end. -/
theorem read_applyWrites_of_mem (m : Memory) (es : List EngineAccess) (a : Nat) (v : Byte)
    (hn : (writtenAddresses es).Nodup) (h : .write a v ∈ es) : Memory.read (applyWrites m es) a = v := by
  obtain ⟨l, r, rfl⟩ := List.append_of_mem h
  refine read_applyWrites_last m l r a v ?_
  simp only [writtenAddresses_append, writtenAddresses_write] at hn
  exact (List.nodup_cons.mp (List.nodup_append.mp hn).2.1).1

end Sys2Proof.Machine
end

