-- ==== Sys2Proof/Laws/Decoder.lean ====
section
/-! SUPPORT. The loop of DECODE against blocks (42_decode.md R180 to R197): one pass, what it accesses, what it writes on blocks
that tile its input, and why it fails. -/

namespace Sys2Proof.Machine

open Sys2Proof.Safety

/-! ## A literal run -/

/-- A literal run without a zero: every byte read and written, in order (R183). -/
theorem literalTrace_zero_free (src dst : Nat) : ∀ (ls : List Byte) (rd wr : Nat), 0#8 ∉ ls →
    readAddresses (literalTrace src dst rd wr ls) = List.range' (src + rd) ls.length ∧
    writtenAddresses (literalTrace src dst rd wr ls) = List.range' (dst + wr) ls.length ∧
    ∀ i (h : i < ls.length), EngineAccess.write (dst + wr + i) ls[i] ∈ literalTrace src dst rd wr ls := by
  intro ls
  induction ls with
  | nil => intros; simp [literalTrace]
  | cons b bs ih =>
    intro rd wr h
    simp only [List.mem_cons, not_or] at h
    have hb : b ≠ 0#8 := Ne.symm h.1
    obtain ⟨h1, h2, h3⟩ := ih (rd + 1) (wr + 1) h.2
    refine ⟨?_, ?_, ?_⟩
    · simp [literalTrace, hb, h1, List.range'_succ, Nat.add_assoc]
    · simp [literalTrace, hb, h2, List.range'_succ, Nat.add_assoc]
    · intro i hi
      cases i with
      | zero => simp [literalTrace, hb]
      | succ i =>
        have := h3 i (by simpa using hi)
        simp only [literalTrace, hb, if_false, List.mem_cons, List.getElem_cons_succ]
        right; right
        rw [show dst + wr + (i + 1) = dst + (wr + 1) + i by omega]
        exact this

/-- A literal run stops at its first zero byte (R183). -/
theorem literalTrace_zero (src dst : Nat) : ∀ (p q : List Byte) (rd wr : Nat), 0#8 ∉ p →
    readAddresses (literalTrace src dst rd wr (p ++ 0#8 :: q)) = List.range' (src + rd) (p.length + 1) ∧
    writtenAddresses (literalTrace src dst rd wr (p ++ 0#8 :: q)) = List.range' (dst + wr) p.length := by
  intro p q
  induction p with
  | nil => intros; simp [literalTrace]
  | cons b bs ih =>
    intro rd wr h
    simp only [List.mem_cons, not_or] at h
    have hb : b ≠ 0#8 := Ne.symm h.1
    obtain ⟨h1, h2⟩ := ih (rd + 1) (wr + 1) h.2
    refine ⟨?_, ?_⟩
    · simp only [List.cons_append, literalTrace, hb, if_false, readAddresses_read, readAddresses_write, h1, List.length_cons]
      rw [List.range'_succ (n := bs.length + 1)]; simp [Nat.add_assoc]
    · simp only [List.cons_append, literalTrace, hb, if_false, writtenAddresses_read, writtenAddresses_write, h2, List.length_cons]
      rw [List.range'_succ]; simp [Nat.add_assoc]

/-! ## One pass of the loop -/

/-- A zero where an overhead byte is due (R181). -/
theorem decodeLoop_zero_overhead (src dst f rd wr) (rest : List Byte) :
    decodeLoop src dst (f + 1) rd wr (0#8 :: rest) = ⟨[.read (src + rd)], .malformed .zeroOverhead⟩ := by
  simp [decodeLoop]

/-- The last block, its run clamped to the bytes that remain (R182, R184). -/
theorem decodeLoop_last_block (src dst f rd wr) {c : Byte} {lits : List Byte} (hc : c ≠ 0#8) (h : 0#8 ∉ lits)
    (hl : lits.length ≤ c.toNat - 1) :
    decodeLoop src dst (f + 1) rd wr (c :: lits) =
      ⟨.read (src + rd) :: literalTrace src dst (rd + 1) wr lits, .success (wr + lits.length)⟩ := by
  have hk : runLength c lits.length = lits.length := by unfold runLength; omega
  simp [decodeLoop, hc, hk, h]

/-- A zero in a literal run (R183). -/
theorem decodeLoop_zero_literal (src dst f rd wr) {c : Byte} {p q : List Byte} (hc : c ≠ 0#8)
    (hl : p.length < c.toNat - 1) :
    ∃ q', decodeLoop src dst (f + 1) rd wr (c :: (p ++ 0#8 :: q)) =
      ⟨.read (src + rd) :: literalTrace src dst (rd + 1) wr (p ++ 0#8 :: q'), .malformed .zeroLiteral⟩ := by
  have hk : p.length + 1 ≤ runLength c (p ++ 0#8 :: q).length := by unfold runLength; simp; omega
  obtain ⟨j, hj⟩ := Nat.exists_eq_add_of_le hk
  refine ⟨q.take j, ?_⟩
  have ht : (p ++ 0#8 :: q).take (runLength c (p ++ 0#8 :: q).length) = p ++ 0#8 :: q.take j := by
    rw [hj, List.take_append, List.take_of_length_le (by omega)]
    rw [show p.length + 1 + j - p.length = j + 1 by omega, List.take_succ_cons]
  simp only [decodeLoop, hc, if_false, ht]
  simp

/-- A block before more bytes (R185). -/
theorem decodeLoop_block (src dst f rd wr) {c : Byte} {lits tail : List Byte} (hc : c ≠ 0#8) (h : 0#8 ∉ lits)
    (hl : lits.length = c.toNat - 1) (ht : tail ≠ []) :
    decodeLoop src dst (f + 1) rd wr (c :: (lits ++ tail)) =
      ⟨.read (src + rd) :: literalTrace src dst (rd + 1) wr lits ++
          (restoredZero dst (wr + lits.length) c ++
            (decodeLoop src dst f (rd + 1 + lits.length)
              (wr + lits.length + (restoredZero dst (wr + lits.length) c).length) tail).trace),
        (decodeLoop src dst f (rd + 1 + lits.length)
              (wr + lits.length + (restoredZero dst (wr + lits.length) c).length) tail).ending⟩ := by
  have hk : runLength c (lits ++ tail).length = lits.length := by unfold runLength; simp; omega
  have hne : ¬ lits.length = (lits ++ tail).length := by
    simp; exact ht
  simp only [decodeLoop, hc, if_false, hk, List.take_left', List.drop_left']
  rw [if_neg (by simpa using h), if_neg hne]

/-- How a stuffed buffer begins: with a zero overhead byte, with a block that ends it, with a run that meets a zero, or with a
whole block before more bytes. -/
theorem stuffed_cases (ys : List Byte) (hy : ys ≠ []) :
    (∃ rest, ys = 0#8 :: rest) ∨
    (∃ c lits, ys = c :: lits ∧ c ≠ 0#8 ∧ 0#8 ∉ lits ∧ lits.length ≤ c.toNat - 1) ∨
    (∃ c p q, ys = c :: (p ++ 0#8 :: q) ∧ c ≠ 0#8 ∧ 0#8 ∉ p ∧ p.length < c.toNat - 1) ∨
    (∃ c lits tail, ys = c :: (lits ++ tail) ∧ c ≠ 0#8 ∧ 0#8 ∉ lits ∧ lits.length = c.toNat - 1 ∧ tail ≠ []) := by
  obtain ⟨c, rest, rfl⟩ := List.exists_cons_of_ne_nil hy
  by_cases hc : c = 0#8
  · left; exact ⟨rest, by rw [hc]⟩
  right
  by_cases hz : 0#8 ∈ rest.take (c.toNat - 1)
  · right; left
    obtain ⟨p, q, hpq, hp⟩ : ∃ p q, rest.take (c.toNat - 1) = p ++ 0#8 :: q ∧ 0#8 ∉ p := by
      obtain ⟨p, q, h1, h2⟩ := List.eq_append_cons_of_mem hz
      exact ⟨p, q, h1, h2⟩
    refine ⟨c, p, q ++ rest.drop (c.toNat - 1), ?_, hc, hp, ?_⟩
    · congr 1
      conv_lhs => rw [← List.take_append_drop (c.toNat - 1) rest, hpq]
      simp
    · have := congrArg List.length hpq
      simp at this; omega
  · by_cases hl : rest.length ≤ c.toNat - 1
    · left
      rw [List.take_of_length_le hl] at hz
      exact ⟨c, rest, rfl, hc, hz, hl⟩
    · right; right
      refine ⟨c, rest.take (c.toNat - 1), rest.drop (c.toNat - 1), by simp, hc, hz, by simp; omega, ?_⟩
      intro h
      have := congrArg List.length h
      simp at this; omega

theorem restoredZero_length (dst wr : Nat) (c : Byte) : (restoredZero dst wr c).length = if c = 0xFF#8 then 0 else 1 := by
  unfold restoredZero Config.fullCode; split <;> simp

/-- A buffer without a zero is read whole (R193). -/
theorem readSpan_zero_free {ys : List Byte} (h : 0#8 ∉ ys) : readSpan ys = ys.length := by
  unfold readSpan
  rw [List.takeWhile_eq_self_iff.mpr (by intro x hx; simp; rintro rfl; exact h hx)]
  omega

theorem readSpan_zero {p q : List Byte} (h : 0#8 ∉ p) : readSpan (p ++ 0#8 :: q) = p.length + 1 := by
  unfold readSpan
  rw [List.takeWhile_append_of_pos (by intro x hx; simp; rintro rfl; exact h hx)]
  simp

theorem readSpan_append {p q : List Byte} (h : 0#8 ∉ p) : readSpan (p ++ q) = p.length + readSpan q := by
  unfold readSpan
  rw [List.takeWhile_append_of_pos (by intro x hx; simp; rintro rfl; exact h hx)]
  simp; omega

/-- What a run of the loop of DECODE accesses, from the cursors `rd` and `wr` over a non-empty rest, and what its ending says. -/
structure DecodeAccesses (src dst rd wr : Nat) (ys : List Byte) (run : CommandRun) : Prop where
  reads  : readAddresses run.trace = List.range' (src + rd) (readSpan ys)
  writes : ∃ w, w < ys.length ∧ writtenAddresses run.trace = List.range' (dst + wr) w ∧
    (∀ r, run.ending = .success r → r = wr + w ∧ 0#8 ∉ ys) ∧
    (∀ r, run.ending = .malformed r → 0#8 ∈ ys)

/-- The accesses of the loop of DECODE (R193, R197). -/
theorem decodeLoop_accesses (src dst : Nat) : ∀ (n : Nat) (ys : List Byte) (f rd wr : Nat),
    ys.length = n → ys ≠ [] → ys.length ≤ f →
    DecodeAccesses src dst rd wr ys (decodeLoop src dst f rd wr ys) := by
  intro n
  induction n using Nat.strongRecOn with
  | _ n ih =>
    intro ys f rd wr hn hy hf
    obtain ⟨f, rfl⟩ : ∃ g, f = g + 1 := ⟨f - 1, by have := List.length_pos_of_ne_nil hy; omega⟩
    rcases stuffed_cases ys hy with ⟨rest, rfl⟩ | ⟨c, lits, rfl, hc, h0, hl⟩ | ⟨c, p, q, rfl, hc, h0, hl⟩ | ⟨c, lits, tail, rfl, hc, h0, hl, ht⟩
    · rw [decodeLoop_zero_overhead]
      have := readSpan_zero (p := []) (q := rest) (by simp)
      simp at this
      refine ⟨by simp [this], 0, by simp, by simp, by simp, by simp⟩
    · rw [decodeLoop_last_block _ _ _ _ _ hc h0 hl]
      obtain ⟨h1, h2, h3⟩ := literalTrace_zero_free src dst lits (rd + 1) wr h0
      have : 0#8 ∉ c :: lits := by simp [Ne.symm hc, h0]
      refine ⟨?_, lits.length, by simp, by simp [h2], ?_, by simp⟩
      · rw [readSpan_zero_free this]
        simp only [readAddresses_read, h1, List.length_cons]
        rw [List.range'_succ]; simp [Nat.add_assoc]
      · intro r hr; cases hr; exact ⟨rfl, this⟩
    · obtain ⟨q', hq⟩ := decodeLoop_zero_literal src dst f rd wr (q := q) hc hl
      rw [hq]
      obtain ⟨h1, h2⟩ := literalTrace_zero src dst p q' (rd + 1) wr h0
      have : 0#8 ∉ c :: p := by simp [Ne.symm hc, h0]
      refine ⟨?_, p.length, by simp, by simp [h2], by simp, by simp⟩
      have e := readSpan_zero (q := q) this
      rw [List.cons_append] at e
      rw [e]
      simp only [readAddresses_read, h1, List.length_cons]
      rw [List.range'_succ (n := p.length + 1)]; simp [Nat.add_assoc]
    · rw [decodeLoop_block _ _ _ _ _ hc h0 hl ht]
      obtain ⟨h1, h2, h3⟩ := literalTrace_zero_free src dst lits (rd + 1) wr h0
      obtain ⟨i1, w, i2, i3, i4, i5⟩ := ih tail.length (by simp at hn; omega) tail f (rd + 1 + lits.length)
        (wr + lits.length + (restoredZero dst (wr + lits.length) c).length) rfl ht (by simp at hf; omega)
      have hne : 0#8 ∉ c :: lits := by simp [Ne.symm hc, h0]
      have hz := restoredZero_length dst (wr + lits.length) c
      refine ⟨?_, lits.length + (restoredZero dst (wr + lits.length) c).length + w, ?_, ?_, ?_, ?_⟩
      · have e := readSpan_append (q := tail) hne
        rw [List.cons_append] at e
        rw [e]
        have hr : readAddresses (restoredZero dst (wr + lits.length) c) = [] := by
          unfold restoredZero; split <;> simp
        simp only [List.cons_append, readAddresses_read, readAddresses_append, h1, i1, hr, List.length_cons, List.nil_append]
        rw [show lits.length + 1 + readSpan tail = (lits.length + readSpan tail) + 1 by omega, List.range'_succ]
        rw [show src + (rd + 1) = src + rd + 1 by omega, show src + (rd + 1 + lits.length) = src + rd + 1 + 1 * lits.length by omega]
        rw [List.range'_append]
      · simp; split at hz <;> omega
      · have hw : writtenAddresses (restoredZero dst (wr + lits.length) c) =
            List.range' (dst + wr + lits.length) (restoredZero dst (wr + lits.length) c).length := by
          unfold restoredZero; split <;> simp [Nat.add_assoc]
        simp only [List.cons_append, writtenAddresses_read, writtenAddresses_append, h2, i3, hw]
        rw [show dst + (wr + lits.length + (restoredZero dst (wr + lits.length) c).length) = (dst + wr + lits.length) + 1 * (restoredZero dst (wr + lits.length) c).length by omega]
        rw [List.range'_append, show dst + wr + lits.length = dst + wr + 1 * lits.length by omega, List.range'_append, Nat.add_assoc]
      · intro r hr
        obtain ⟨j1, j2⟩ := i4 r hr
        refine ⟨by omega, ?_⟩
        simp only [List.mem_cons, List.mem_append, not_or]
        exact ⟨Ne.symm hc, h0, j2⟩
      · intro r hr
        have := i5 r hr
        simp [this]

/-- What a run of the loop of DECODE computes on the bytes of blocks that tile them. -/
structure DecodeTiles (dst wr : Nat) (bs : List CodeBlock) (ys : List Byte) (run : CommandRun) : Prop where
  ending   : run.ending = .success (wr + decodedLength bs)
  length   : (decodedBlocks bs).length = decodedLength bs
  zeroFree : 0#8 ∉ ys
  nonempty : ys ≠ []
  content  : ∀ i (h : i < (decodedBlocks bs).length),
    EngineAccess.write (dst + wr + i) (decodedBlocks bs)[i] ∈ run.trace

/-- DECODE writes the decoded blocks, in order (R182 to R188). -/
theorem decodeLoop_tiles (src dst : Nat) : ∀ (bs : List CodeBlock) (f rd wr : Nat), Tiles bs →
    (blockBytes bs).length ≤ f →
    DecodeTiles dst wr bs (blockBytes bs) (decodeLoop src dst f rd wr (blockBytes bs)) := by
  intro bs
  induction bs with
  | nil => intro f rd wr h; exact absurd h (by simp [Tiles])
  | cons b bs ih =>
    intro f rd wr h hf
    obtain ⟨f, rfl⟩ : ∃ g, f = g + 1 := ⟨f - 1, by simp [blockBytes] at hf; omega⟩
    cases bs with
    | nil =>
      obtain ⟨hc, h0, hl⟩ := h
      have e : blockBytes [b] = b.code :: b.literals := by simp [blockBytes]
      rw [e, decodeLoop_last_block _ _ _ _ _ hc h0 hl]
      obtain ⟨h1, h2, h3⟩ := literalTrace_zero_free src dst b.literals (rd + 1) wr h0
      refine ⟨by simp [decodedLength], by simp [decodedLength, decodedBlocks], by simp [Ne.symm hc, h0], by simp, ?_⟩
      intro i hi
      simp only [decodedBlocks] at hi ⊢
      exact List.mem_cons_of_mem _ (h3 i hi)
    | cons c rest =>
      obtain ⟨hc, h0, hl, ht⟩ := h
      have e : blockBytes (b :: c :: rest) = b.code :: (b.literals ++ blockBytes (c :: rest)) := by simp [blockBytes]
      have hlen : (blockBytes (c :: rest)).length ≤ f := by rw [e] at hf; simp at hf; omega
      obtain ⟨i1, i2, i3, i4, i5⟩ := ih f (rd + 1 + b.literals.length)
        (wr + b.literals.length + (restoredZero dst (wr + b.literals.length) b.code).length) ht hlen
      rw [e, decodeLoop_block _ _ _ _ _ hc h0 hl i4]
      obtain ⟨h1, h2, h3⟩ := literalTrace_zero_free src dst b.literals (rd + 1) wr h0
      have hz := restoredZero_length dst (wr + b.literals.length) b.code
      have hdl : decodedLength (b :: c :: rest) = b.literals.length + (if b.code = 0xFF#8 then 0 else 1) + decodedLength (c :: rest) := by
        unfold decodedLength
        simp only [List.map_cons, List.sum_cons, List.dropLast_cons_of_ne_nil (show c :: rest ≠ [] by simp), List.filter_cons]
        split <;> simp_all <;> omega
      have hdb : decodedBlocks (b :: c :: rest) = b.literals ++ ((if b.code = 0xFF#8 then [] else [0#8]) ++ decodedBlocks (c :: rest)) := by
        simp [decodedBlocks]
      refine ⟨?_, ?_, ?_, by simp, ?_⟩
      · show (decodeLoop _ _ _ _ _ _).ending = _
        rw [i1, hz, hdl]; congr 1; omega
      · rw [hdb, hdl]; simp [i2]; split <;> (simp; try omega)
      · simp only [List.mem_cons, List.mem_append, not_or]; exact ⟨Ne.symm hc, h0, i3⟩
      · intro i hi
        simp only [hdb]
        show _ ∈ _ :: _ ++ _
        by_cases hi1 : i < b.literals.length
        · rw [List.getElem_append_left hi1]
          have := h3 i hi1
          simp [this]
        · have hz2 : (if b.code = 0xFF#8 then [] else [0#8] : List Byte).length = (restoredZero dst (wr + b.literals.length) b.code).length := by
            rw [hz]; split <;> rfl
          rw [List.getElem_append_right (by omega)]
          by_cases hi2 : i - b.literals.length < (if b.code = 0xFF#8 then [] else [0#8] : List Byte).length
          · rw [List.getElem_append_left hi2]
            have hne : ¬ b.code = 0xFF#8 := by intro hh; simp [hh] at hi2
            have hi0 : i = b.literals.length := by simp [hne] at hi2; omega
            subst hi0
            simp [hne, restoredZero, Config.fullCode, Nat.add_assoc]
          · rw [List.getElem_append_right (by omega)]
            rw [hdb] at hi
            have hb : i - b.literals.length - (if b.code = 0xFF#8 then [] else [0#8] : List Byte).length < (decodedBlocks (c :: rest)).length := by
              simp only [List.length_append] at hi; omega
            have := i5 _ hb
            have e2 : dst + (wr + b.literals.length + (restoredZero dst (wr + b.literals.length) b.code).length) + (i - b.literals.length - (if b.code = 0xFF#8 then [] else [0#8] : List Byte).length) = dst + wr + i := by
              rw [hz2] at hi2 ⊢; omega
            rw [e2] at this
            refine List.mem_append_right _ (List.mem_append_right _ this)

/-- Blocks tile every zero-free buffer (R187). -/
theorem tiles_of_zero_free : ∀ (n : Nat) (ys : List Byte), ys.length = n → ys ≠ [] → 0#8 ∉ ys → ∃ bs, Tiles bs ∧ blockBytes bs = ys := by
  intro n
  induction n using Nat.strongRecOn with
  | _ n ih =>
    intro ys hn hy h0
    rcases stuffed_cases ys hy with ⟨rest, rfl⟩ | ⟨c, lits, rfl, hc, hl0, hl⟩ | ⟨c, p, q, rfl, hc, hp, hl⟩ | ⟨c, lits, tail, rfl, hc, hl0, hl, ht⟩
    · simp at h0
    · exact ⟨[⟨c, lits⟩], ⟨hc, hl0, hl⟩, by simp [blockBytes]⟩
    · simp at h0
    · obtain ⟨bs, h1, h2⟩ := ih tail.length (by simp at hn; omega) tail rfl ht (by simp at h0; tauto)
      cases bs with
      | nil => exact absurd h1 (by simp [Tiles])
      | cons d rest => 
        refine ⟨⟨c, lits⟩ :: d :: rest, ⟨hc, hl0, hl, h1⟩, ?_⟩
        simp only [blockBytes] at h2 ⊢
        rw [List.flatMap_cons, h2]; simp

/-- The reason of a failure is where the first zero stands (R187). -/
theorem decodeLoop_reason (src dst : Nat) : ∀ (n : Nat) (p q : List Byte) (f rd wr : Nat), p.length = n → 0#8 ∉ p → (p ++ 0#8 :: q).length ≤ f →
    (BlockBoundary p → (decodeLoop src dst f rd wr (p ++ 0#8 :: q)).ending = .malformed .zeroOverhead) ∧
    (¬ BlockBoundary p → (decodeLoop src dst f rd wr (p ++ 0#8 :: q)).ending = .malformed .zeroLiteral) := by
  intro n
  induction n using Nat.strongRecOn with
  | _ n ih =>
    intro p q f rd wr hn h0 hf
    obtain ⟨f, rfl⟩ : ∃ g, f = g + 1 := ⟨f - 1, by simp at hf; omega⟩
    by_cases hp : p = []
    · subst hp
      rw [List.nil_append, decodeLoop_zero_overhead]
      exact ⟨fun _ => rfl, fun h => absurd (.inl rfl) h⟩
    rcases stuffed_cases p hp with ⟨rest, rfl⟩ | ⟨c, lits, rfl, hc, hl0, hl⟩ | ⟨c, p, q, rfl, hc, hp, hl⟩ | ⟨c, lits, tail, rfl, hc, hl0, hl, ht⟩
    · simp at h0
    · rcases Nat.lt_or_eq_of_le hl with hlt | heq
      · obtain ⟨q', hq⟩ := decodeLoop_zero_literal src dst f rd wr (q := q) hc hlt
        rw [List.cons_append, hq]
        refine ⟨?_, fun _ => rfl⟩
        rintro (h | ⟨bs, hb1, hb2, hb3⟩)
        · simp at h
        · exfalso
          match bs, hb1, hb2, hb3 with
          | [d], _, hb2, hb3 =>
            simp [blockBytes] at hb2
            have := hb3 d (by simp)
            rw [hb2.1, hb2.2] at this; omega
          | d :: e :: rest, hb1, hb2, hb3 =>
            simp only [blockBytes, List.flatMap_cons, List.cons_append, List.cons.injEq] at hb2
            have := hb3 d (by simp)
            have hlen := congrArg List.length hb2.2
            simp at hlen
            rw [hb2.1] at this; omega
      · have := decodeLoop_block src dst f rd wr (tail := 0#8 :: q) hc hl0 heq (by simp)
        obtain ⟨g, rfl⟩ : ∃ g, f = g + 1 := ⟨f - 1, by simp at hf; omega⟩
        rw [List.cons_append, this, decodeLoop_zero_overhead]
        refine ⟨fun _ => rfl, fun h => absurd (.inr ⟨[⟨c, lits⟩], ⟨hc, hl0, hl⟩, by simp [blockBytes], by simpa using heq⟩) h⟩
    · simp at h0
    · have := decodeLoop_block src dst f rd wr (tail := tail ++ 0#8 :: q) hc hl0 hl (by simp)
      have ha : c :: (lits ++ tail) ++ 0#8 :: q = c :: (lits ++ (tail ++ 0#8 :: q)) := by simp
      rw [ha, this]
      have ht0 : 0#8 ∉ tail := by simp at h0; tauto
      have ih := ih tail.length (by simp at hn; omega) tail q f (rd + 1 + lits.length)
        (wr + lits.length + (restoredZero dst (wr + lits.length) c).length) rfl ht0 (by simp at hf ⊢; omega)
      have hb : BlockBoundary (c :: (lits ++ tail)) ↔ BlockBoundary tail := by
        constructor
        · rintro (h | ⟨bs, hb1, hb2, hb3⟩)
          · simp at h
          · match bs, hb1, hb2, hb3 with
            | [d], _, hb2, hb3 =>
              simp [blockBytes] at hb2
              have := hb3 d (by simp)
              rw [hb2.1, hb2.2] at this; simp at this
              left; apply List.eq_nil_of_length_eq_zero; omega
            | d :: e :: rest, hb1, hb2, hb3 =>
              simp only [blockBytes, List.flatMap_cons, List.cons_append, List.cons.injEq] at hb2
              have hd := hb3 d (by simp)
              rw [hb2.1] at hd
              have := List.append_inj hb2.2 (by omega)
              right
              exact ⟨e :: rest, hb1.2.2.2, by simpa [blockBytes] using this.2, fun b hb => hb3 b (List.mem_cons_of_mem _ hb)⟩
        · rintro (h | ⟨bs, hb1, hb2, hb3⟩)
          · exact absurd h ht
          · right
            cases bs with
            | nil => exact absurd hb1 (by simp [Tiles])
            | cons d rest =>
              refine ⟨⟨c, lits⟩ :: d :: rest, ⟨hc, hl0, hl, hb1⟩, ?_, ?_⟩
              · rw [← hb2]; simp [blockBytes]
              · intro b hb
                rcases List.mem_cons.mp hb with rfl | hb
                · exact hl
                · exact hb3 b hb
      rw [hb]
      exact ih

end Sys2Proof.Machine
end

