-- ==== Sys2Proof/Laws/Segments.lean ====
section
/-! SUPPORT. The closed form of the code (41_encode.md R147, R148) block by block: how the segments, the segment form and its
length begin, for a block that ends the input, one that a zero closes and one that 254 literals close. -/

namespace Sys2Proof.Safety

theorem segments_ne_nil (x : List Byte) : segments x ≠ [] := by
  cases x with
  | nil => simp [segments]
  | cons b bs =>
    unfold segments; split
    · simp
    · split <;> simp

/-- Zero-free bytes before a buffer join its first segment. -/
theorem segments_append {l : List Byte} (h : 0#8 ∉ l) (x : List Byte) (s : List Byte) (ss) (hs : segments x = s :: ss) :
    segments (l ++ x) = (l ++ s) :: ss := by
  induction l with
  | nil => simpa using hs
  | cons b l ih =>
    simp only [List.mem_cons, not_or] at h
    have := ih h.2
    simp [segments, this, Ne.symm h.1]

theorem segments_zero (x : List Byte) : segments (0#8 :: x) = [] :: segments x := by simp [segments]

theorem segments_of_zero_free {l : List Byte} (h : 0#8 ∉ l) : segments l = [l] := by
  have := segments_append h [] [] [] rfl
  simpa using this

/-- Any fuel that covers the full blocks gives the same segment form. -/
theorem encSegFuel_stable (s : List Byte) : ∀ f g : Nat, s.length / 254 ≤ f → s.length / 254 ≤ g →
    encSegFuel f s = encSegFuel g s := by
  intro f
  induction f generalizing s with
  | zero =>
    intro g h0 _
    cases g with
    | zero => rfl
    | succ g =>
      have : ¬ 254 ≤ s.length := by omega
      simp [encSegFuel, this]
  | succ f ih =>
    intro g h1 h2
    by_cases hs : 254 ≤ s.length
    · cases g with
      | zero => omega
      | succ g =>
        simp only [encSegFuel, hs, if_true]
        rw [ih (s.drop 254) g (by simp; omega) (by simp; omega)]
    · cases g with
      | zero => simp [encSegFuel, hs]
      | succ g => simp [encSegFuel, hs]

/-- A segment shorter than a full block is one block (R148). -/
theorem encSeg_short {s : List Byte} (h : s.length < 254) : encSeg s = BitVec.ofNat 8 (s.length + 1) :: s := by
  unfold encSeg
  rw [encSegFuel_stable s s.length 0 (by omega) (by omega)]
  rfl

/-- A segment of at least 254 bytes starts with a full block (R148). -/
theorem encSeg_full {l s : List Byte} (h : l.length = 254) : encSeg (l ++ s) = 0xFF#8 :: (l ++ encSeg s) := by
  unfold encSeg
  rw [encSegFuel_stable (l++s) (l++s).length (s.length + 1) (by omega) (by simp; omega)]
  simp only [encSegFuel]
  rw [if_pos (by simp; omega)]
  simp [← h]

/-- The last block of a buffer, when it is not full (R144). -/
theorem segmentForm_short {l : List Byte} (h : 0#8 ∉ l) (hl : l.length < 254) :
    segmentForm l = BitVec.ofNat 8 (l.length + 1) :: l := by
  simp [segmentForm, segments_of_zero_free h, encSeg_short hl]

/-- A block that a zero closes (R142). -/
theorem segmentForm_zero {l : List Byte} (h : 0#8 ∉ l) (hl : l.length < 254) (x : List Byte) :
    segmentForm (l ++ 0#8 :: x) = BitVec.ofNat 8 (l.length + 1) :: (l ++ segmentForm x) := by
  have := segments_append h (0#8 :: x) [] (segments x) (segments_zero x)
  simp [segmentForm, this, encSeg_short hl]

/-- A block that 254 literals close (R143). -/
theorem segmentForm_full {l : List Byte} (h : 0#8 ∉ l) (hl : l.length = 254) (x : List Byte) :
    segmentForm (l ++ x) = 0xFF#8 :: (l ++ segmentForm x) := by
  obtain ⟨s, ss, hs⟩ := List.exists_cons_of_ne_nil (segments_ne_nil x)
  have := segments_append h x s ss hs
  simp [segmentForm, this, hs, encSeg_full hl]

theorem segmentLength_zero {l : List Byte} (h : 0#8 ∉ l) (hl : l.length < 254) (x : List Byte) :
    segmentLength (l ++ 0#8 :: x) = l.length + 1 + segmentLength x := by
  have := segments_append h (0#8 :: x) [] (segments x) (segments_zero x)
  simp [segmentLength, this]; omega

theorem segmentLength_full {l : List Byte} (h : 0#8 ∉ l) (hl : l.length = 254) (x : List Byte) :
    segmentLength (l ++ x) = 255 + segmentLength x := by
  obtain ⟨s, ss, hs⟩ := List.exists_cons_of_ne_nil (segments_ne_nil x)
  have := segments_append h x s ss hs
  simp [segmentLength, this, hs, hl]; omega

theorem encSeg_prefix {l s : List Byte} (hl : l.length ≤ 254) : ∃ c r, encSeg (l ++ s) = c :: (l ++ r) := by
  by_cases h : (l ++ s).length < 254
  · exact ⟨_, s, encSeg_short h⟩
  · simp at h
    have : l ++ s = (l ++ s.take (254 - l.length)) ++ s.drop (254 - l.length) := by simp
    rw [this, encSeg_full (by simp; omega)]
    exact ⟨0xFF#8, s.take (254 - l.length) ++ encSeg (s.drop (254 - l.length)), by simp⟩

/-- The first block of an output holds the first zero-free bytes of the input. -/
theorem segmentForm_prefix {l : List Byte} (h : 0#8 ∉ l) (hl : l.length ≤ 254) (x : List Byte) :
    ∃ c r, segmentForm (l ++ x) = c :: (l ++ r) := by
  obtain ⟨s, ss, hs⟩ := List.exists_cons_of_ne_nil (segments_ne_nil x)
  have := segments_append h x s ss hs
  obtain ⟨c, r, hr⟩ := encSeg_prefix (l := l) (s := s) hl
  refine ⟨c, r ++ ss.flatMap encSeg, ?_⟩
  simp [segmentForm, this, hr]

end Sys2Proof.Safety
end

