-- ==== Sys2Proof/Laws/Encoder.lean ====
section
/-! SUPPORT. The loop of ENCODE against the closed form of the code (41_encode.md R140 to R151). -/

namespace Sys2Proof.Machine

open Sys2Proof.Safety

/-- The cursors inside a block that starts at a destination offset and holds these literals so far (R141). -/
def pendingCursor (cp : Nat) (l : List Byte) : EncodeCursor := ⟨cp, cp + 1 + l.length, BitVec.ofNat 8 (l.length + 1)⟩

/-- The 254th literal fills a block (R143). -/
theorem pendingCursor_fills (cp : Nat) {l : List Byte} (hl : l.length < 254) : (pendingCursor cp l).fills = decide (l.length = 253) := by
  unfold EncodeCursor.fills pendingCursor Config.fullCode
  simp only
  rw [Bool.eq_iff_iff]
  simp only [beq_iff_eq, decide_eq_true_eq, ← BitVec.toNat_inj]
  simp [BitVec.toNat_add, BitVec.toNat_ofNat]
  omega

/-- A zero closes the block; the next one starts behind it (R142). -/
theorem encodeNext_zero (cp : Nat) (l : List Byte) : encodeNext (pendingCursor cp l) 0#8 = pendingCursor (cp + 1 + l.length) [] := by
  simp [encodeNext, pendingCursor]

/-- A literal that does not fill the block joins it (R143). -/
theorem encodeNext_literal (cp : Nat) {l : List Byte} (hl : l.length < 253) {b : Byte} (hb : b ≠ 0#8) :
    encodeNext (pendingCursor cp l) b = pendingCursor cp (l ++ [b]) := by
  have hf := pendingCursor_fills cp (l := l) (by omega)
  have : ¬ l.length = 253 := by omega
  simp only [this, decide_false] at hf
  unfold encodeNext
  rw [if_neg hb, hf, if_neg (by simp)]
  simp [pendingCursor, Nat.add_assoc]
  rw [← BitVec.toNat_inj]; simp [BitVec.toNat_add, BitVec.toNat_ofNat]

/-- A literal that fills the block closes it (R143). -/
theorem encodeNext_full (cp : Nat) {l : List Byte} (hl : l.length = 253) {b : Byte} (hb : b ≠ 0#8) :
    encodeNext (pendingCursor cp l) b = pendingCursor (cp + 255) [] := by
  have hf := pendingCursor_fills cp (l := l) (by omega)
  simp only [hl, decide_true] at hf
  unfold encodeNext
  rw [if_neg hb, hf, if_pos rfl]
  simp [pendingCursor, hl]

/-- Everything the loop of ENCODE does from inside a block with pending literals `l`, over the source bytes `xs` at address `a`. -/
structure EncodeLoop (dst a cp : Nat) (l xs : List Byte) : Prop where
  result  : (encodeEnd (pendingCursor cp l) xs).wr = cp + (segmentForm (l ++ xs)).length
  length  : (segmentForm (l ++ xs)).length = segmentLength (l ++ xs)
  reads   : readAddresses (encodeTrace dst a (pendingCursor cp l) xs) = List.range' a xs.length
  writes  : (writtenAddresses (encodeTrace dst a (pendingCursor cp l) xs)).Perm
    ((dst + cp) :: List.range' (dst + cp + 1 + l.length) ((segmentForm (l ++ xs)).length - (1 + l.length)))
  pending : 1 + l.length ≤ (segmentForm (l ++ xs)).length
  content : ∀ i (h : i < (segmentForm (l ++ xs)).length), i = 0 ∨ l.length < i →
    EngineAccess.write (dst + cp + i) (segmentForm (l ++ xs))[i] ∈ encodeTrace dst a (pendingCursor cp l) xs
  noZero  : 0#8 ∉ segmentForm (l ++ xs)

/-- The loop of ENCODE computes the segment form: each of its bytes is written once, at its place (R140 to R148). -/
theorem encode_loop (dst : Nat) : ∀ (xs l : List Byte) (a cp : Nat), 0#8 ∉ l → l.length < 254 →
    EncodeLoop dst a cp l xs := by
  intro xs
  induction xs with
  | nil =>
    intro l a cp h hl
    have hsf := segmentForm_short h hl
    refine ⟨?_, ?_, ?_, ?_, ?_, ?_, ?_⟩ <;> (try simp only [List.append_nil])
    · simp [encodeEnd, hsf, pendingCursor]; omega
    · simp [hsf, segmentLength, segments_of_zero_free h]; omega
    · simp [encodeTrace]
    · simp only [encodeTrace, hsf, writtenAddresses_write, writtenAddresses_nil, pendingCursor]
      simp [Nat.add_comm]
    · simp [hsf]; omega
    · intro i hi hc
      simp only [hsf, List.length_cons] at hi
      have : i = 0 := by omega
      subst this
      simp [encodeTrace, hsf, pendingCursor]
    · simp only [hsf, List.mem_cons, not_or]
      refine ⟨?_, h⟩
      rw [← BitVec.toNat_inj]; simp [BitVec.toNat_ofNat]; omega
  | cons b bs ih =>
    intro l a cp h hl
    by_cases hb : b = 0#8
    · subst hb
      have hsf := segmentForm_zero h hl bs
      obtain ⟨i1, i2, i3, i4, i5, i6, i7⟩ := ih [] (a + 1) (cp + 1 + l.length) (by simp) (by simp)
      simp only [List.nil_append] at i1 i2 i3 i4 i5 i6 i7
      refine ⟨?_, ?_, ?_, ?_, ?_, ?_, ?_⟩
      · simp only [encodeEnd, List.foldl_cons, encodeNext_zero] at *
        rw [i1, hsf]; simp; omega
      · rw [hsf, segmentLength_zero h hl]; simp [i2]; omega
      · simp only [encodeTrace, encodeNext_zero]
        simp [i3, encodeWrites, List.range'_succ]
      · simp only [encodeTrace, encodeNext_zero, encodeWrites, if_true, writtenAddresses_read,
          writtenAddresses_write, List.singleton_append]
        refine List.Perm.trans (List.Perm.cons _ i4) ?_
        have : (segmentForm (l ++ 0#8 :: bs)).length - (1 + l.length) = (segmentForm bs).length := by
          rw [hsf]; simp; omega
        rw [this]
        obtain ⟨n, hn⟩ : ∃ n, (segmentForm bs).length = n + 1 := ⟨_, (Nat.sub_add_cancel (by simpa using i5)).symm⟩
        rw [hn, List.range'_succ]
        simp [pendingCursor, Nat.add_assoc]
      · rw [hsf]; simp; omega
      · intro i hi hc
        simp only [encodeTrace, encodeNext_zero, encodeWrites, if_true]
        rcases hc with rfl | hc
        · simp [hsf, pendingCursor]
        · have key : (segmentForm (l ++ 0#8 :: bs))[i] = (segmentForm bs)[i - (l.length + 1)]'(by
              rw [hsf] at hi; simp at hi; omega) := by
            simp only [hsf]
            rw [List.getElem_cons, dif_neg (by omega), List.getElem_append_right (by omega)]
            congr 1; omega
          rw [key]
          have := i6 (i - (l.length + 1)) (by rw [hsf] at hi; simp at hi; omega) (by
            rcases Nat.eq_zero_or_pos (i - (l.length + 1)) with h | h
            · exact .inl h
            · exact .inr (by simpa using h))
          have e : dst + (cp + 1 + l.length) + (i - (l.length + 1)) = dst + cp + i := by omega
          rw [e] at this
          simp [this]
      · rw [hsf]
        simp only [List.mem_cons, List.mem_append, not_or]
        refine ⟨?_, h, i7⟩
        rw [← BitVec.toNat_inj]; simp [BitVec.toNat_ofNat]; omega
    · by_cases hfull : l.length = 253
      · have hlb : (l ++ [b]).length = 254 := by simp [hfull]
        have hfree : 0#8 ∉ l ++ [b] := by simp [h, Ne.symm hb]
        have hsf : segmentForm (l ++ b :: bs) = 0xFF#8 :: (l ++ [b] ++ segmentForm bs) := by
          have := segmentForm_full hfree hlb bs
          simpa using this
        obtain ⟨i1, i2, i3, i4, i5, i6, i7⟩ := ih [] (a + 1) (cp + 255) (by simp) (by simp)
        simp only [List.nil_append] at i1 i2 i3 i4 i5 i6 i7
        have hf := pendingCursor_fills cp (l := l) (by omega)
        simp only [hfull, decide_true] at hf
        refine ⟨?_, ?_, ?_, ?_, ?_, ?_, ?_⟩
        · simp only [encodeEnd, List.foldl_cons, encodeNext_full cp hfull hb] at *
          rw [i1, hsf]; simp [hfull]; omega
        · have := segmentLength_full hfree hlb bs
          rw [List.append_assoc, List.singleton_append] at this
          rw [hsf, this]; simp [i2, hfull]; omega
        · simp only [encodeTrace, encodeNext_full cp hfull hb]
          simp [i3, encodeWrites, hb, hf, List.range'_succ]
        · simp only [encodeTrace, encodeNext_full cp hfull hb, encodeWrites, hb, hf, if_false, if_true, writtenAddresses_read,
            writtenAddresses_write, List.cons_append, List.nil_append]
          have hlen : (segmentForm (l ++ b :: bs)).length - (1 + l.length) = (segmentForm bs).length + 1 := by
            rw [hsf]; simp; omega
          rw [hlen, List.range'_succ]
          refine List.Perm.trans (List.Perm.swap _ _ _) ?_
          refine List.Perm.cons _ ?_
          have e1 : dst + (pendingCursor cp l).wr = dst + cp + 1 + l.length := by simp [pendingCursor]; omega
          rw [e1]
          refine List.Perm.cons _ (List.Perm.trans i4 ?_)
          obtain ⟨n, hn⟩ : ∃ n, (segmentForm bs).length = n + 1 := ⟨_, (Nat.sub_add_cancel (by simpa using i5)).symm⟩
          rw [hn, List.range'_succ]
          have e2 : dst + (cp + 255) = dst + cp + 1 + l.length + 1 := by omega
          simp [e2]
        · rw [hsf]; simp; omega
        · intro i hi hc
          simp only [encodeTrace, encodeNext_full cp hfull hb, encodeWrites, hb, hf, if_false, if_true]
          rcases hc with rfl | hc
          · have e0 : (segmentForm (l ++ b :: bs))[0] = Config.fullCode := by simp only [hsf]; rfl
            rw [e0]
            show EngineAccess.write (dst + cp) Config.fullCode ∈ _
            simp [pendingCursor]
          · rcases Nat.eq_or_lt_of_le (show l.length + 1 ≤ i from hc) with he | he
            · subst he
              have : (segmentForm (l ++ b :: bs))[l.length + 1] = b := by
                simp [hsf]
              rw [this]
              have e1 : dst + cp + (l.length + 1) = dst + (pendingCursor cp l).wr := by simp [pendingCursor]; omega
              simp [e1]
            · have key : (segmentForm (l ++ b :: bs))[i] = (segmentForm bs)[i - 255]'(by
                  rw [hsf] at hi; simp [hfull] at hi; omega) := by
                simp only [hsf]
                rw [List.getElem_cons, dif_neg (by omega), List.getElem_append_right (by simp; omega)]
                have ei : i - 1 - (l ++ [b]).length = i - 255 := by simp only [hlb]; omega
                exact getElem_congr_idx ei
              rw [key]
              have := i6 (i - 255) (by rw [hsf] at hi; simp [hfull] at hi; omega) (by
                rcases Nat.eq_zero_or_pos (i - 255) with h | h
                · exact .inl h
                · exact .inr (by simpa using h))
              have e : dst + (cp + 255) + (i - 255) = dst + cp + i := by omega
              rw [e] at this
              simp [this]
        · rw [hsf]
          simp only [List.mem_cons, List.mem_append, not_or] at hfree ⊢
          exact ⟨by decide, ⟨hfree.1, hfree.2⟩, i7⟩
      · have hl' : (l ++ [b]).length < 254 := by simp; omega
        have hfree : 0#8 ∉ l ++ [b] := by simp [h, Ne.symm hb]
        obtain ⟨i1, i2, i3, i4, i5, i6, i7⟩ := ih (l ++ [b]) (a + 1) cp hfree hl'
        simp only [List.append_assoc, List.singleton_append] at i1 i2 i3 i4 i5 i6 i7
        have hf := pendingCursor_fills cp hl
        simp only [hfull, decide_false] at hf
        have hst := encodeNext_literal cp (l := l) (by omega) hb
        refine ⟨?_, i2, ?_, ?_, ?_, ?_, i7⟩
        · simp only [encodeEnd, List.foldl_cons, hst] at *
          exact i1
        · simp only [encodeTrace, hst]
          simp [i3, encodeWrites, hb, hf, List.range'_succ]
        · simp only [encodeTrace, hst, encodeWrites, hb, hf, if_false, writtenAddresses_read,
            writtenAddresses_write, List.cons_append, List.nil_append, Bool.false_eq_true]
          simp only [List.length_append, List.length_singleton] at i4 i5
          obtain ⟨n, hn⟩ : ∃ n, (segmentForm (l ++ b :: bs)).length - (1 + l.length) = n + 1 :=
            ⟨(segmentForm (l ++ b :: bs)).length - (1 + l.length) - 1, by omega⟩
          have e1 : dst + (pendingCursor cp l).wr = dst + cp + 1 + l.length := by simp [pendingCursor]; omega
          rw [hn, List.range'_succ, e1]
          refine List.Perm.trans (List.Perm.cons _ i4) ?_
          have e2 : (segmentForm (l ++ b :: bs)).length - (1 + (l.length + 1)) = n := by omega
          rw [e2]
          refine List.Perm.trans (List.Perm.swap _ _ _) ?_
          simp [Nat.add_assoc]
        · simp at i5; omega
        · intro i hi hc
          simp only [encodeTrace, hst, encodeWrites, hb, hf, if_false, Bool.false_eq_true]
          by_cases he : i = l.length + 1
          · subst he
            have key : (segmentForm (l ++ b :: bs))[l.length + 1] = b := by
              obtain ⟨c, r, hr⟩ := segmentForm_prefix hfree (by simp; omega) bs
              simp only [List.append_assoc, List.singleton_append] at hr
              simp [hr]
            rw [key]
            have e1 : dst + cp + (l.length + 1) = dst + (pendingCursor cp l).wr := by simp [pendingCursor]; omega
            simp [e1]
          · have := i6 i hi (by rcases hc with h | h; exact .inl h; exact .inr (by simp; omega))
            simp [this]

/-- The start of a command is an empty block at offset 0 (R141). -/
theorem pendingCursor_start : EncodeCursor.start = pendingCursor 0 [] := rfl

/-- The loop over a whole source buffer. -/
theorem encode_loop_start (src dst : Nat) (xs : List Byte) : EncodeLoop dst src 0 [] xs :=
  encode_loop dst xs [] src 0 (by simp) (by simp)

/-- RESULT by the closed form (R147). -/
theorem encodedLength_eq (xs : List Byte) : encodedLength xs = segmentLength xs := by
  have h := encode_loop_start 0 0 xs
  have h1 := h.result
  have h2 := h.length
  simp only [List.nil_append, Nat.zero_add] at h1 h2
  rw [encodedLength, pendingCursor_start, h1, h2]

end Sys2Proof.Machine
end

