-- ==== Sys2Proof/Laws/Flags.lean ====
section
/-! SUPPORT. The STATUS words of the outcomes, written out (95_test_vectors.md's list), and the fields they decode to. -/

namespace Sys2Proof.Machine

@[simp] theorem status_success : Completion.success.status = 0x00000100#32 := by decide
@[simp] theorem status_dstUnset : (Completion.invalidArguments .dstUnset).status = 0x00000111#32 := by decide
@[simp] theorem status_srcUnset : (Completion.invalidArguments .srcUnset).status = 0x00000121#32 := by decide
@[simp] theorem status_srcIsDst : (Completion.invalidArguments .srcIsDst).status = 0x00000131#32 := by decide
@[simp] theorem status_lenNotPositive :
    (Completion.invalidArguments .lenNotPositive).status = 0x00000141#32 := by decide
@[simp] theorem status_zeroOverhead : (Completion.malformedStream .zeroOverhead).status = 0x00000112#32 := by decide
@[simp] theorem status_zeroLiteral : (Completion.malformedStream .zeroLiteral).status = 0x00000122#32 := by decide
@[simp] theorem status_busRead : (Completion.busError .read).status = 0x00000113#32 := by decide
@[simp] theorem status_busWrite : (Completion.busError .write).status = 0x00000123#32 := by decide
@[simp] theorem status_reservedOp : (Completion.badCommand .reservedOp).status = 0x00000114#32 := by decide
@[simp] theorem status_reservedBits : (Completion.badCommand .reservedBits).status = 0x00000124#32 := by decide

/-- The fields of the STATUS word an outcome leaves (R85): its own codes, DONE set, the reserved bits zero. -/
theorem status_fields (c : Completion) :
    statusErr c.status = c.err ∧ statusReason c.status = c.reason ∧ statusDone c.status = 1#1 ∧
      statusRest c.status = 0#23 := by
  cases c with
  | success => decide
  | invalidArguments r => cases r <;> decide
  | malformedStream r => cases r <;> decide
  | busError k => cases k <;> decide
  | badCommand r => cases r <;> decide

/-- Only success leaves the word 0x00000100. -/
theorem status_eq_success {c : Completion} : c.status = 0x00000100#32 ↔ c = .success := by
  cases c with
  | success => decide
  | invalidArguments r => cases r <;> decide
  | malformedStream r => cases r <;> decide
  | busError k => cases k <;> decide
  | badCommand r => cases r <;> decide

end Sys2Proof.Machine
end

