-- ==== Sys2Proof/Laws/Ops.lean ====
section
/-! SUPPORT. One lemma per shared operation that says once everything it can do: regions, the argument check, the conditions
of a command and its outcomes, the events and the step. Later proofs cite these and do not unfold the operations. -/

namespace Sys2Proof.Machine

open Sys2Proof.Safety

/-! ## Regions and the platform -/

theorem Region.contains_iff {r : Region} {a : Nat} : r.contains a = true ↔ within r a := by
  simp [Region.contains, within]

theorem Region.meets_iff {r t : Region} : r.meets t = true ↔ ∃ a, within r a ∧ within t a := by
  constructor
  · intro h
    have h : max r.base t.base < min (r.base + r.size) (t.base + t.size) := by simpa [Region.meets] using h
    refine ⟨max r.base t.base, ?_⟩
    unfold within
    omega
  · rintro ⟨a, ⟨h1, h2⟩, h3, h4⟩
    unfold Region.meets
    exact decide_eq_true (by omega)

theorem Region.wraps_iff {r : Region} : r.wraps = true ↔ 2 ^ 32 < r.base + r.size := by
  unfold Region.wraps
  rw [decide_eq_true_iff]
  exact Iff.rfl

/-- `ordinary` says that no address of the region is the window's or a device's (R60). -/
theorem Platform.ordinary_iff {p : Platform} {r : Region} : p.ordinary r = true ↔ OrdinaryArea p r := by
  have hw : (!r.meets p.window) = true ↔ ∀ a, within r a → ¬ within p.window a := by
    rw [Bool.not_eq_true', ← Bool.not_eq_true, Region.meets_iff]
    simp
  have hd : (p.devices.all fun d => !r.meets d) = true ↔
      ∀ a, within r a → ∀ d ∈ p.devices, ¬ within d a := by
    rw [List.all_eq_true]
    constructor
    · intro h a ha d hd hda
      have := h d hd
      rw [Bool.not_eq_true', ← Bool.not_eq_true, Region.meets_iff] at this
      exact this ⟨a, ha, hda⟩
    · intro h d hd
      rw [Bool.not_eq_true', ← Bool.not_eq_true, Region.meets_iff]
      rintro ⟨a, ha, hda⟩
      exact h a ha d hd hda
  rw [Platform.ordinary, Bool.and_eq_true, hw, hd]
  exact ⟨fun ⟨h1, h2⟩ a ha => ⟨h1 a ha, h2 a ha⟩, fun h => ⟨fun a ha => (h a ha).1, fun a ha => (h a ha).2⟩⟩

theorem AgentAccess.clashes_iff {rr wr : Region} {e : AgentAccess} :
    e.clashes rr wr = false ↔ Undisturbing rr wr e := by
  cases e with
  | read a =>
    rw [AgentAccess.clashes, Undisturbing, ← Region.contains_iff]
    simp
  | write a v =>
    rw [AgentAccess.clashes, Undisturbing, ← Region.contains_iff, ← Region.contains_iff]
    simp

/-! ## Whether a command is defined (R58, R60, R61, R64) -/

/-- A command is defined exactly when its regions meet the host's duties. -/
theorem commandFault_eq_none {rr wr : Region} {s : State} :
    commandFault rr wr s = none ↔ RegionsDefined rr wr s := by
  have hwrap : (rr.wraps || wr.wraps) = true ↔ ¬ (rr.base + rr.size ≤ 2 ^ 32 ∧ wr.base + wr.size ≤ 2 ^ 32) := by
    rw [Bool.or_eq_true, Region.wraps_iff, Region.wraps_iff]
    omega
  have hord : (!s.plat.ordinary rr || !s.plat.ordinary wr) = true ↔
      ¬ (OrdinaryArea s.plat rr ∧ OrdinaryArea s.plat wr) := by
    rw [← Platform.ordinary_iff, ← Platform.ordinary_iff]
    cases s.plat.ordinary rr <;> cases s.plat.ordinary wr <;> simp
  have hcon : s.concurrent.any (AgentAccess.clashes rr wr) = true ↔
      ¬ ∀ e ∈ s.concurrent, Undisturbing rr wr e := by
    simp [← AgentAccess.clashes_iff]
  unfold commandFault
  constructor
  · intro h
    split at h
    · cases h
    · rename_i h1
      split at h
      · cases h
      · rename_i h2
        split at h
        · cases h
        · rename_i h3
          split at h
          · cases h
          · rename_i h4
            rw [hwrap, not_not] at h1
            rw [hord, not_not] at h2
            rw [Region.meets_iff] at h3
            rw [hcon, not_not] at h4
            exact ⟨h1.1, h1.2, h2.1, h2.2, fun a ha => h3 ⟨a, ha⟩, h4⟩
  · intro h
    rw [if_neg (by rw [hwrap, not_not]; exact ⟨h.readFits, h.writeFits⟩),
      if_neg (by rw [hord, not_not]; exact ⟨h.readOrdinary, h.writeOrdinary⟩),
      if_neg (by rw [Region.meets_iff]; rintro ⟨a, ha⟩; exact h.disjoint a ha),
      if_neg (by rw [hcon, not_not]; exact h.undisturbed)]

/-! ## The argument check (R222, R223) -/

theorem operands_src (s : State) : (operands s).src = s.regs.src.toNat := rfl
theorem operands_dst (s : State) : (operands s).dst = s.regs.dst.toNat := rfl
theorem operands_n (s : State) : (operands s).n = s.regs.len.toInt := rfl

/-- Arguments are valid exactly when none of the four causes holds. -/
theorem checkArgs_eq_none {s : State} : checkArgs (operands s) = none ↔ ArgsValid s := by
  have hd : (operands s).dst = 0 ↔ s.regs.dst = 0x00000000#32 := by
    rw [operands_dst, ← BitVec.toNat_inj]
    rfl
  have hs : (operands s).src = 0 ↔ s.regs.src = 0x00000000#32 := by
    rw [operands_src, ← BitVec.toNat_inj]
    rfl
  have he : (operands s).src = (operands s).dst ↔ s.regs.src = s.regs.dst := by
    rw [operands_src, operands_dst, BitVec.toNat_inj]
  have hn : (operands s).n ≤ 0 ↔ s.regs.len.toInt ≤ 0 := Iff.rfl
  unfold checkArgs
  simp only [hd, hs, he, hn]
  constructor
  · intro h
    split at h
    · cases h
    · split at h
      · cases h
      · split at h
        · cases h
        · split at h
          · cases h
          · exact ⟨‹_›, ‹_›, ‹_›, by omega⟩
  · intro h
    rw [if_neg h.dstSet, if_neg h.srcSet, if_neg h.srcIsntDst, if_neg (by have := h.lenPos; omega)]

/-! ## The outcomes of a command (R224) -/

/-- Everything a command with valid arguments can do when it answers a next state: its regions are defined, and it ends by
BusError, MalformedStream or success. -/
theorem runCommand_eq_next {rr wr : Region} {run : CommandRun} {s t : State}
    (h : runCommand rr wr run s = .next t) :
    RegionsDefined rr wr s ∧
      ((∃ k, busErrorKind s run.trace = some k ∧ t = finish (.busError k) 0x00000000#32 (havoc wr s)) ∨
        (busErrorKind s run.trace = none ∧ ∃ r, run.ending = .malformed r ∧
          t = finish (.malformedStream r) 0x00000000#32 (havoc wr s)) ∨
        (busErrorKind s run.trace = none ∧ ∃ n, run.ending = .success n ∧
          t = finish .success (BitVec.ofNat 32 n) { s with mem := applyWrites s.mem run.trace })) := by
  unfold runCommand at h
  split at h
  · cases h
  · rename_i hf
    refine ⟨commandFault_eq_none.mp hf, ?_⟩
    split at h
    · rename_i k hk
      left
      exact ⟨k, hk, by cases h; rfl⟩
    · rename_i hk
      right
      split at h
      · rename_i r hr
        left
        exact ⟨hk, r, hr, by cases h; rfl⟩
      · rename_i n hn
        right
        exact ⟨hk, n, hn, by cases h; rfl⟩

/-- A command with defined regions answers a next state. -/
theorem runCommand_of_defined {rr wr : Region} (run : CommandRun) {s : State} (h : RegionsDefined rr wr s) :
    runCommand rr wr run s = .next
      (match busErrorKind s run.trace with
        | some k => finish (.busError k) 0x00000000#32 (havoc wr s)
        | none =>
          match run.ending with
          | .malformed r => finish (.malformedStream r) 0x00000000#32 (havoc wr s)
          | .success n => finish .success (BitVec.ofNat 32 n) { s with mem := applyWrites s.mem run.trace }) := by
  unfold runCommand
  rw [commandFault_eq_none.mpr h]
  cases busErrorKind s run.trace with
  | some k => rfl
  | none => cases run.ending <;> rfl

/-- A sequence of accesses that the platform answers has no bus error. -/
theorem busErrorKind_eq_none {s : State} {es : List EngineAccess} :
    busErrorKind s es = none ↔ ∀ e ∈ es, e.fails s.plat = false := by
  have hsplit : ∀ l : List EngineAccess,
      (l.any EngineAccess.isRead = false ∧ l.any (fun e => !e.isRead) = false) ↔ l = [] := by
    intro l
    cases l with
    | nil => simp
    | cons e l => cases he : e.isRead <;> simp [he]
  have hnil : es.filter (EngineAccess.fails s.plat) = [] ↔ ∀ e ∈ es, e.fails s.plat = false := by
    simp [List.filter_eq_nil_iff]
  rw [← hnil, ← hsplit]
  unfold busErrorKind
  dsimp only
  generalize (List.filter (EngineAccess.fails s.plat) es).any EngineAccess.isRead = x
  generalize ((List.filter (EngineAccess.fails s.plat) es).any fun e => !e.isRead) = y
  cases x <;> cases y <;> simp

/-! ## Accesses of other agents -/

/-- A store of another agent that answers a next state has written its byte to ordinary memory, and done nothing else. -/
theorem agentStore_eq_next {a : Word} {v : Byte} {s t : State} (h : agentStore a v s = .next t) :
    t = { s with mem := Memory.write s.mem a.toNat v } := by
  unfold agentStore at h
  split at h
  · cases h
  · split at h
    · cases h
    · cases h
      rfl

/-- A read of another agent goes on exactly where it keeps off the window, and changes nothing. -/
theorem agentRead_eq_next {a : Word} {s t : State} :
    agentRead a s = .next t ↔ ¬ within s.plat.window a.toNat ∧ t = s := by
  unfold agentRead
  rw [← Region.contains_iff]
  by_cases h : s.plat.window.contains a.toNat = true
  · simp [h]
  · rw [if_neg h]
    exact ⟨fun e => by cases e; exact ⟨h, rfl⟩, fun e => by rw [e.2]⟩

/-- What the accesses of other agents change is memory alone, and they keep its canonical form. -/
theorem agentAccesses_eq_next {es : List AgentAccess} {s t : State} (h : agentAccesses s es = .next t) :
    t = { s with mem := t.mem } ∧ (Memory.wf s.mem = true → Memory.wf t.mem = true) := by
  induction es generalizing s with
  | nil =>
    cases h
    exact ⟨rfl, id⟩
  | cons e es ih =>
    cases e with
    | read a =>
      obtain ⟨u, hu, ht⟩ := andThen_eq_next.mp h
      obtain ⟨-, rfl⟩ := agentRead_eq_next.mp hu
      exact ih ht
    | write a v =>
      obtain ⟨u, hu, ht⟩ := andThen_eq_next.mp h
      have hu := agentStore_eq_next hu
      obtain ⟨h1, h2⟩ := ih ht
      subst hu
      refine ⟨h1, fun hwf => h2 (Memory.wf_write _ hwf ?_)⟩
      exact a.isLt

/-! ## Events and the step -/

/-- What a step is: nothing with no event waiting, and otherwise the event's effect. -/
theorem step_nil {s : State} (h : s.inbox = []) : step s = .next s := by
  simp [step, h]

theorem step_cons {s : State} {e : HostEvent} {rest : List HostEvent} (h : s.inbox = e :: rest) :
    step s = perform e (takeEvent s rest) := by
  simp [step, h]

/-- What happens with other agents active. -/
theorem whileOthers_eq_next {others : List AgentAccess} {f : State → Result} {s t : State}
    (h : whileOthers others f s = .next t) :
    ∃ u, f { s with concurrent := others } = .next u ∧ agentAccesses { u with concurrent := [] } others = .next t :=
  andThen_eq_next.mp h

/-- With no other agent active. -/
theorem whileOthers_nil (f : State → Result) (s : State) :
    whileOthers [] f s = andThen (f { s with concurrent := [] }) fun t => .next { t with concurrent := [] } := rfl

/-- A host access that answers a next state is to something else, or performs its instruction. -/
theorem hostAccess_eq_next {f : Instr → State → Result} {a : BusAccess} {s t : State}
    (h : hostAccess f a s = .next t) :
    (decodeBus s.plat.regBase a = .notOurs ∧ t = s) ∨
      ∃ i, decodeBus s.plat.regBase a = .instr i ∧ f i s = .next t := by
  unfold hostAccess at h
  split at h
  · left
    cases h
    exact ⟨‹_›, rfl⟩
  · cases h
  · right
    exact ⟨_, ‹_›, h⟩

/-- A reset during an access that answers a next state: the registers are reset, and memory is as it was or unspecified in the
write region of a defined command (R261). -/
theorem abandon_eq_next {i : Instr} {s t : State} (h : abandon i s = .next t) :
    t = blockReset s ∨ ∃ rr wr, RegionsDefined rr wr s ∧ t = blockReset (havoc wr s) := by
  unfold abandon at h
  split at h
  · left
    cases h
    rfl
  · rename_i rr wr _
    split at h
    · cases h
    · right
      cases h
      exact ⟨rr, wr, commandFault_eq_none.mp ‹_›, rfl⟩

end Sys2Proof.Machine
end

