-- ==== Sys2Proof/Laws/Commands.lean ====
section
/-! SUPPORT. The two commands in the terms of Safety.lean: what each does with valid arguments and with invalid ones, and what
its accesses are in its two regions. -/

namespace Sys2Proof.Machine

open Sys2Proof.Safety

/-! ## The model's regions are the spec's -/

theorem readRegion_eq (s : State) : readRegion (operands s) = readArea s := rfl

theorem sourceBytes_eq (s : State) : sourceBytes (operands s) s = source s := rfl

theorem decodeWriteRegion_eq (s : State) : decodeWriteRegion (operands s) = decodeArea s := rfl

theorem encodeWriteRegion_eq (s : State) : encodeWriteRegion (operands s) s = encodeArea s := by
  simp only [encodeWriteRegion, encodeArea, encodedLength_eq]
  rfl

theorem source_length (s : State) : (source s).length = (readArea s).size :=
  Memory.readBytes_length _ _ _

/-- The source bytes depend on the arguments and the bytes of the read region alone. -/
theorem source_congr {s u : State} (hs : u.regs.src = s.regs.src) (hl : u.regs.len = s.regs.len)
    (h : ∀ a, within (readArea s) a → Memory.read u.mem a = Memory.read s.mem a) : source u = source s := by
  have hr : readArea u = readArea s := by simp [readArea, hs, hl]
  unfold source
  rw [hr]
  exact Memory.readBytes_congr fun b h1 h2 => h b ⟨h1, h2⟩

/-- A command with valid arguments has at least one source byte. -/
theorem source_ne_nil {s : State} (h : ArgsValid s) : source s ≠ [] := by
  have h1 := source_length s
  have h2 := h.lenPos
  intro h0
  rw [h0] at h1
  simp only [List.length_nil, readArea] at h1
  omega

/-! ## The two effects -/

/-- A command whose arguments are not valid ends at once (R226). -/
theorem encodeCommandEffect_invalid {s : State} {r : ArgReason} (h : checkArgs (operands s) = some r) :
    encodeCommandEffect s = .next (finish (.invalidArguments r) 0x00000000#32 s) := by
  simp [encodeCommandEffect, h]

theorem decodeCommandEffect_invalid {s : State} {r : ArgReason} (h : checkArgs (operands s) = some r) :
    decodeCommandEffect s = .next (finish (.invalidArguments r) 0x00000000#32 s) := by
  simp [decodeCommandEffect, h]

theorem encodeCommandEffect_valid {s : State} (h : ArgsValid s) :
    encodeCommandEffect s =
      runCommand (readArea s) (encodeArea s) (encodeRun s.regs.src.toNat s.regs.dst.toNat (source s)) s := by
  have h := checkArgs_eq_none.mpr h
  simp only [encodeCommandEffect, h, encodeWriteRegion_eq]
  rfl

theorem decodeCommandEffect_valid {s : State} (h : ArgsValid s) :
    decodeCommandEffect s =
      runCommand (readArea s) (decodeArea s) (decodeRun s.regs.src.toNat s.regs.dst.toNat (source s)) s := by
  have h := checkArgs_eq_none.mpr h
  simp only [decodeCommandEffect, h]
  rfl

/-- Whether the arguments are valid or not. -/
theorem args_cases (s : State) : ArgsValid s ∨ ∃ r, checkArgs (operands s) = some r := by
  cases h : checkArgs (operands s) with
  | none => exact .inl (checkArgs_eq_none.mp h)
  | some r => exact .inr ⟨r, rfl⟩

/-! ## Accesses -/

theorem mem_writtenAddresses {es : List EngineAccess} {a : Nat} :
    a ∈ writtenAddresses es ↔ ∃ v, EngineAccess.write a v ∈ es := by
  induction es with
  | nil => simp
  | cons e es ih =>
    cases e with
    | read b => simp [ih]
    | write b v =>
      simp only [writtenAddresses_write, List.mem_cons, ih, EngineAccess.write.injEq]
      constructor
      · rintro (rfl | ⟨w, hw⟩)
        · exact ⟨v, .inl ⟨rfl, rfl⟩⟩
        · exact ⟨w, .inr hw⟩
      · rintro ⟨w, ⟨rfl, -⟩ | hw⟩
        · exact .inl rfl
        · exact .inr ⟨w, hw⟩

theorem mem_readAddresses {es : List EngineAccess} {a : Nat} :
    a ∈ readAddresses es ↔ EngineAccess.read a ∈ es := by
  induction es with
  | nil => simp
  | cons e es ih =>
    cases e with
    | read b => simp [ih]
    | write b v => simp [ih]

/-- No access is refused when the platform answers every address read and every address written. -/
theorem fails_of_addresses {p : Platform} {es : List EngineAccess}
    (hr : ∀ a ∈ readAddresses es, p.busOk a .read = true)
    (hw : ∀ a ∈ writtenAddresses es, p.busOk a .write = true) : ∀ e ∈ es, e.fails p = false := by
  intro e he
  cases e with
  | read a => simp [EngineAccess.fails, hr a (mem_readAddresses.mpr he)]
  | write a v => simp [EngineAccess.fails, hw a (mem_writtenAddresses.mpr ⟨v, he⟩)]

/-- What a BusError reports, by the addresses that fail (R228). -/
theorem busErrorKind_cases (s : State) (es : List EngineAccess) :
    let badRead := ∃ a ∈ readAddresses es, s.plat.busOk a .read = false
    let badWrite := ∃ a ∈ writtenAddresses es, s.plat.busOk a .write = false
    (¬ badRead ∧ ¬ badWrite ∧ busErrorKind s es = none) ∨
      (badRead ∧ ¬ badWrite ∧ busErrorKind s es = some .read) ∨
      (¬ badRead ∧ badWrite ∧ busErrorKind s es = some .write) ∨
      (badRead ∧ badWrite ∧ (busErrorKind s es = some .read ∨ busErrorKind s es = some .write)) := by
  intro badRead badWrite
  have h1 : ((es.filter (EngineAccess.fails s.plat)).any EngineAccess.isRead) = true ↔ badRead := by
    rw [List.any_eq_true]
    constructor
    · rintro ⟨e, he, hr⟩
      cases e with
      | read a =>
        have := List.mem_filter.mp he
        exact ⟨a, mem_readAddresses.mpr this.1, by simpa [EngineAccess.fails] using this.2⟩
      | write a v => simp [EngineAccess.isRead] at hr
    · rintro ⟨a, ha, hb⟩
      exact ⟨.read a, List.mem_filter.mpr ⟨mem_readAddresses.mp ha, by simp [EngineAccess.fails, hb]⟩, rfl⟩
  have h2 : ((es.filter (EngineAccess.fails s.plat)).any fun e => !e.isRead) = true ↔ badWrite := by
    rw [List.any_eq_true]
    constructor
    · rintro ⟨e, he, hr⟩
      cases e with
      | read a => simp [EngineAccess.isRead] at hr
      | write a v =>
        have := List.mem_filter.mp he
        exact ⟨a, mem_writtenAddresses.mpr ⟨v, this.1⟩, by simpa [EngineAccess.fails] using this.2⟩
    · rintro ⟨a, ha, hb⟩
      obtain ⟨v, hv⟩ := mem_writtenAddresses.mp ha
      exact ⟨.write a v, List.mem_filter.mpr ⟨hv, by simp [EngineAccess.fails, hb]⟩, rfl⟩
  unfold busErrorKind
  dsimp only
  generalize (es.filter (EngineAccess.fails s.plat)).any EngineAccess.isRead = x at h1 ⊢
  generalize ((es.filter (EngineAccess.fails s.plat)).any fun e => !e.isRead) = y at h2 ⊢
  cases x <;> cases y
  · exact .inl ⟨fun h => by simpa using h1.mpr h, fun h => by simpa using h2.mpr h, rfl⟩
  · exact .inr (.inr (.inl ⟨fun h => by simpa using h1.mpr h, h2.mp rfl, rfl⟩))
  · exact .inr (.inl ⟨h1.mp rfl, fun h => by simpa using h2.mpr h, rfl⟩)
  · refine .inr (.inr (.inr ⟨h1.mp rfl, h2.mp rfl, ?_⟩))
    dsimp only
    cases Config.freeBusReason s.draws
    · exact .inr rfl
    · exact .inl rfl

end Sys2Proof.Machine
end

