-- ==== Sys2Proof/Laws/PerInstr.lean ====
section
/-! SUPPORT. A statement about every instruction as syntax, one lemma per constructor: no encoding is an access that the block
leaves undefined (40_register_access.md R110), and the bytes of each form are as many as the form has. -/

namespace Sys2Proof.Laws

/-- Every slot of the register map is at a multiple of 4 (R81). -/
theorem slot_offset_aligned (k : Slot) : k.offset.toNat % 4 = 0 := by cases k <;> decide

/-- The encoding of the instruction is a CTRL word of four bytes, or an access of 32 bits at a multiple of 4, which with its
data word is five. -/
def EncodesWholeWords.Statement (i : Instr) : Prop :=
  match encode i with
  | .ctrl _ => (encodeBytes i).length = 4
  | .mmio a => a.width = .w32 ∧ a.off.toNat % 4 = 0 ∧ (encodeBytes i).length = 5

theorem EncodesWholeWords.encode : Statement .encode := rfl
theorem EncodesWholeWords.decode : Statement .decode := rfl
theorem EncodesWholeWords.nop (ignored : BitVec 31) : Statement (.nop ignored) := rfl
theorem EncodesWholeWords.badcmdOp (op : ReservedOp) : Statement (.badcmdOp op) := by cases op <;> rfl
theorem EncodesWholeWords.badcmdBits (rsvd : BitVec 29) (op : BitVec 2) : Statement (.badcmdBits rsvd op) := rfl
theorem EncodesWholeWords.wrSrc (v : Word) : Statement (.wrSrc v) := ⟨rfl, slot_offset_aligned _, rfl⟩
theorem EncodesWholeWords.wrDst (v : Word) : Statement (.wrDst v) := ⟨rfl, slot_offset_aligned _, rfl⟩
theorem EncodesWholeWords.wrLen (v : Word) : Statement (.wrLen v) := ⟨rfl, slot_offset_aligned _, rfl⟩
theorem EncodesWholeWords.wrCtrl (w : Word) : Statement (.wrCtrl w) := ⟨rfl, slot_offset_aligned _, rfl⟩
theorem EncodesWholeWords.wrStatus (v : Word) : Statement (.wrStatus v) := ⟨rfl, slot_offset_aligned _, rfl⟩
theorem EncodesWholeWords.wrResult (v : Word) : Statement (.wrResult v) := ⟨rfl, slot_offset_aligned _, rfl⟩
theorem EncodesWholeWords.wrRsvd (off : ReservedOffset) (v : Word) : Statement (.wrRsvd off v) := by
  cases off <;> exact ⟨rfl, slot_offset_aligned _, rfl⟩
theorem EncodesWholeWords.rdSrc : Statement .rdSrc := ⟨rfl, slot_offset_aligned _, rfl⟩
theorem EncodesWholeWords.rdDst : Statement .rdDst := ⟨rfl, slot_offset_aligned _, rfl⟩
theorem EncodesWholeWords.rdLen : Statement .rdLen := ⟨rfl, slot_offset_aligned _, rfl⟩
theorem EncodesWholeWords.rdCtrl : Statement .rdCtrl := ⟨rfl, slot_offset_aligned _, rfl⟩
theorem EncodesWholeWords.rdStatus : Statement .rdStatus := ⟨rfl, slot_offset_aligned _, rfl⟩
theorem EncodesWholeWords.rdResult : Statement .rdResult := ⟨rfl, slot_offset_aligned _, rfl⟩
theorem EncodesWholeWords.rdRsvd (off : ReservedOffset) : Statement (.rdRsvd off) := by
  cases off <;> exact ⟨rfl, slot_offset_aligned _, rfl⟩

end Sys2Proof.Laws
end

