-- ==== Sys2Proof/Machine/Assembler.lean ====
section
/-! DEFINITION. The syntax of 30_encoding.md R91 and its pseudo-instructions, as terms, and the host accesses each line
stands for. -/

namespace Sys2Proof.Machine

/-- One line of the syntax of R91. `RD` and `WR` take any slot of the window: 95_test_vectors.md writes the reserved ones by
their offset. -/
inductive AsmLine where
  /-- `WR slot, v` -/
  | wr (slot : Slot) (v : Word)
  /-- `RD slot` -/
  | rd (slot : Slot)
  /-- `ENCODE` -/
  | encode
  /-- `DECODE` -/
  | decode
  /-- `NOP` -/
  | nop
  /-- `COBS.ENC dst, src, n` -/
  | cobsEnc (dst src n : Word)
  /-- `COBS.DEC dst, src, n` -/
  | cobsDec (dst src n : Word)
  deriving DecidableEq, Repr

/-- The accesses of a pseudo-instruction with a given command word (R91). -/
def cobsAccesses (dst src n w : Word) : List Instr :=
  [.wrDst dst, .wrSrc src, .wrLen n, .wrCtrl w, .rdStatus, .rdResult]

/-- The instructions a line stands for (R91). -/
def AsmLine.expand : AsmLine → List Instr
  | .wr slot v => [writeInstr v slot]
  | .rd slot => [readInstr slot]
  | .encode => [.wrCtrl 0x00000001#32]
  | .decode => [.wrCtrl 0x00000003#32]
  | .nop => [.wrCtrl 0x00000000#32]
  | .cobsEnc dst src n => cobsAccesses dst src n 0x00000001#32
  | .cobsDec dst src n => cobsAccesses dst src n 0x00000003#32

/-- The host accesses of a list of lines, for a block whose window lies at a base address. -/
def assemble (base : Nat) (lines : List AsmLine) : List BusAccess :=
  (lines.flatMap AsmLine.expand).map fun i => busAccess base (encode i)

end Sys2Proof.Machine
end

