-- ==== Sys2Proof/Tests/Slice0.lean ====
section
/-! SUPPORT. The model's own tests. Expected values are the spec's: words written out from 30_encoding.md R81 to R83, results from
the vectors of 95_test_vectors.md, named by their number. Last, a witness for the hypotheses of every statement. -/

namespace Sys2Proof.Tests

open Sys2Proof.Machine Sys2Proof.Safety

/-! ## Small states -/

/-- A memory with these bytes from an address on. -/
def placed (a : Nat) : List Byte → Memory
  | [] => []
  | b :: bs => if b = 0x00#8 then placed (a + 1) bs else (a, b) :: placed (a + 1) bs

/-- A block after reset with its arguments written and source bytes in memory. -/
def bench (src dst : Word) (xs : List Byte) : State :=
  { State.reset with
    regs := { Regs.reset with src := src, dst := dst, len := BitVec.ofNat 32 xs.length }
    mem := placed src.toNat xs }

/-- A block after reset with these arguments and an empty memory. -/
def argued (src dst len : Word) : State :=
  { State.reset with regs := { Regs.reset with src := src, dst := dst, len := len } }

/-- STATUS, RESULT and the `n` bytes at `a` after an outcome, if it is a next state. -/
def seen (o : Result) (a n : Nat) : Option (Word × Word × List Byte) :=
  match o with
  | .next t => some (t.regs.status, t.regs.result, Memory.readBytes t.mem a n)
  | .fault _ => none
  | .refused _ => none

/-- The state after an outcome, the reset state where it stops. -/
def after (o : Result) : State :=
  match o with
  | .next t => t
  | .fault _ => State.reset
  | .refused _ => State.reset

/-- Whether an outcome is a next state. -/
def goesOn (o : Result) : Bool :=
  match o with
  | .next _ => true
  | .fault _ => false
  | .refused _ => false

theorem next_after {o : Result} (h : goesOn o = true) : o = .next (after o) := by
  cases o with
  | next t => rfl
  | fault f => simp [goesOn] at h
  | refused r => simp [goesOn] at h

/-- What a host access of a fresh block returns. -/
def replyOf (s : State) (i : Instr) : Option Word :=
  (after (exec i s)).reply

/-- `[11 22 00 33]` at 0x1000, to be encoded to 0x2000 (S-3). -/
def rawBench : State := bench 0x1000#32 0x2000#32 [0x11, 0x22, 0x00, 0x33]

/-- `[03 11 22 02 33]` at 0x1000, to be decoded to 0x2000 (D-03). -/
def stuffedBench : State := bench 0x1000#32 0x2000#32 [0x03, 0x11, 0x22, 0x02, 0x33]

/-- `[03 11 00 02 33]` at 0x1000, to be decoded to 0x2000 (D-20). -/
def brokenBench : State := bench 0x1000#32 0x2000#32 [0x03, 0x11, 0x00, 0x02, 0x33]

/-- A platform that refuses reads and writes in these regions. -/
def refusing (s : State) (reads writes : List Region) : State :=
  { s with plat := { s.plat with readErrors := reads, writeErrors := writes } }

/-- The access of a host that carries a command word to the block of `State.reset`. -/
def command (w : Word) : BusAccess := ⟨.write, 0x4000000C, .w32, w⟩

/-! ## Decoding: the words of the encoding tables, bit by bit -/

theorem test_decode_encode : decode (.ctrl 0b00000000000000000000000000000001#32) = .ok .encode := by decide
theorem test_decode_decode : decode (.ctrl 0b00000000000000000000000000000011#32) = .ok .decode := by decide
theorem test_decode_nop : decode (.ctrl 0b10000000000000000000000000000110#32) = .ok (.nop 0x40000003#31) := by decide
theorem test_decode_badcmd_op10 :
    decode (.ctrl 0b00000000000000000000000000000101#32) = .ok (.badcmdOp .op10) := by decide
theorem test_decode_badcmd_op11 :
    decode (.ctrl 0b00000000000000000000000000000111#32) = .ok (.badcmdOp .op11) := by decide
theorem test_decode_badcmd_bits :
    decode (.ctrl 0b10000000000000000000000000001101#32) = .ok (.badcmdBits 0x10000001#29 0b10#2) := by decide
theorem test_decode_wr_src : decode (.mmio ⟨.write, 0b00000#5, .w32, 0x12345678#32⟩) = .ok (.wrSrc 0x12345678#32) := by decide
theorem test_decode_wr_dst : decode (.mmio ⟨.write, 0b00100#5, .w32, 0x12345678#32⟩) = .ok (.wrDst 0x12345678#32) := by decide
theorem test_decode_wr_len : decode (.mmio ⟨.write, 0b01000#5, .w32, 0x80000000#32⟩) = .ok (.wrLen 0x80000000#32) := by decide
theorem test_decode_wr_ctrl : decode (.mmio ⟨.write, 0b01100#5, .w32, 0x00000003#32⟩) = .ok (.wrCtrl 0x00000003#32) := by decide
theorem test_decode_wr_status : decode (.mmio ⟨.write, 0b10000#5, .w32, 0x000000FF#32⟩) = .ok (.wrStatus 0x000000FF#32) := by
  decide
theorem test_decode_wr_result : decode (.mmio ⟨.write, 0b10100#5, .w32, 0x000000FF#32⟩) = .ok (.wrResult 0x000000FF#32) := by
  decide
theorem test_decode_wr_rsvd :
    decode (.mmio ⟨.write, 0b11000#5, .w32, 0xFFFFFFFF#32⟩) = .ok (.wrRsvd .x18 0xFFFFFFFF#32) ∧
    decode (.mmio ⟨.write, 0b11100#5, .w32, 0xFFFFFFFF#32⟩) = .ok (.wrRsvd .x1C 0xFFFFFFFF#32) := by decide
theorem test_decode_rd_src : decode (.mmio ⟨.read, 0b00000#5, .w32, 0#32⟩) = .ok .rdSrc := by decide
theorem test_decode_rd_dst : decode (.mmio ⟨.read, 0b00100#5, .w32, 0#32⟩) = .ok .rdDst := by decide
theorem test_decode_rd_len : decode (.mmio ⟨.read, 0b01000#5, .w32, 0#32⟩) = .ok .rdLen := by decide
theorem test_decode_rd_ctrl : decode (.mmio ⟨.read, 0b01100#5, .w32, 0#32⟩) = .ok .rdCtrl := by decide
theorem test_decode_rd_status : decode (.mmio ⟨.read, 0b10000#5, .w32, 0#32⟩) = .ok .rdStatus := by decide
theorem test_decode_rd_result : decode (.mmio ⟨.read, 0b10100#5, .w32, 0#32⟩) = .ok .rdResult := by decide
theorem test_decode_rd_rsvd :
    decode (.mmio ⟨.read, 0b11000#5, .w32, 0#32⟩) = .ok (.rdRsvd .x18) ∧
    decode (.mmio ⟨.read, 0b11100#5, .w32, 0#32⟩) = .ok (.rdRsvd .x1C) := by decide

/-- R110: 8, 16 and 64 bits and offsets off a multiple of 4 are refused by name. -/
theorem test_decode_access_size :
    decode (.mmio ⟨.read, 0x10#5, .w8, 0#32⟩) = .error .accessSize ∧
    decode (.mmio ⟨.write, 0x00#5, .w16, 0#32⟩) = .error .accessSize ∧
    decode (.mmio ⟨.read, 0x14#5, .w64, 0#32⟩) = .error .accessSize ∧
    decode (.mmio ⟨.read, 0x1D#5, .w32, 0#32⟩) = .error .accessSize := by decide

/-- The bytes of a word lie in little-endian lanes (R52); three bytes are neither form. -/
theorem test_decode_bytes :
    decodeBytes [0x03, 0x00, 0x00, 0x00] = .ok .decode ∧
    decodeBytes [0x08, 0x04, 0x03, 0x02, 0x01] = .ok (.wrLen 0x01020304#32) ∧
    decodeBytes [0x01, 0x00, 0x00] = .error .byteCount := by decide

theorem test_encode_words :
    encode .decode = .ctrl 0x00000003#32 ∧ encode (.badcmdBits 1#29 0#2) = .ctrl 0x00000009#32 ∧
    encode (.nop 3#31) = .ctrl 0x00000006#32 ∧ encode (.badcmdOp .op11) = .ctrl 0x00000007#32 ∧
    encode (.wrRsvd .x1C 5#32) = .mmio ⟨.write, 0x1C#5, .w32, 5#32⟩ := by decide

theorem test_table_words :
    decodeTableWord 32 0x00000001 = some .encode ∧ decodeTableWord 8 0x0C = some (.wrCtrl 0#32) ∧
    decodeTableWord 8 0x34 = some .rdResult ∧ decodeTableWord 8 0x02 = none := by decide

/-! ## Well-formedness -/

/-- The one ill-formed term: BADCMD_BITS whose reserved bits are zero is another row's word (R83). -/
theorem test_wellFormed_refuses : (Instr.badcmdBits 0#29 0b01#2).wellFormed = false := by decide
theorem test_wellFormed_accepts : (Instr.badcmdBits 1#29 0b01#2).wellFormed = true := by decide

/-! ## ENCODE -/

theorem test_encode_S1 : seen (exec .encode (bench 0x1000#32 0x2000#32 [0x00])) 0x2000 3
    = some (0x100#32, 2#32, [0x01, 0x01, 0x00]) := by decide
theorem test_encode_S3 : seen (exec .encode rawBench) 0x2000 6
    = some (0x100#32, 5#32, [0x03, 0x11, 0x22, 0x02, 0x33, 0x00]) := by decide
/-- E-08, E-11, cursors only: a zero after 253 literals does not fill a block; 254 literals do. -/
theorem test_encode_full_block :
    encodedLength (List.replicate 253 0x11 ++ [0x00]) = 255 ∧ encodedLength (List.replicate 254 0x11 ++ [0x00]) = 257 := by
  decide +kernel
/-- E-24 and E-25. -/
theorem test_encode_undefined :
    exec .encode (bench 0x1000#32 0x1002#32 [0x11, 0x22, 0x33, 0x44]) = .fault .overlap ∧
    exec .encode (argued 0xFFFFFFFE#32 0x2000#32 4#32) = .fault .addressWrap := ⟨rfl, rfl⟩

/-! ## DECODE -/

theorem test_decode_D03 : seen (exec .decode stuffedBench) 0x2000 5
    = some (0x100#32, 4#32, [0x11, 0x22, 0x00, 0x33, 0x00]) := by decide
theorem test_decode_D08 : seen (exec .decode (bench 0x1000#32 0x2000#32 [0x05, 0x11, 0x22])) 0x2000 3
    = some (0x100#32, 2#32, [0x11, 0x22, 0x00]) := by decide
theorem test_decode_D16 : seen (exec .decode (bench 0x1000#32 0x2000#32 [0x01, 0xFF, 0x11])) 0x2000 3
    = some (0x100#32, 2#32, [0x00, 0x11, 0x00]) := by decide
/-- D-18, D-19 and D-22: STATUS alone, since the write region is unspecified. -/
theorem test_decode_malformed :
    (after (exec .decode (bench 0x1000#32 0x2000#32 [0x03, 0x11, 0x22, 0x02, 0x33, 0x00]))).regs.status = 0x112#32 ∧
    (after (exec .decode (bench 0x1000#32 0x2000#32 [0x05, 0x11, 0x22, 0x00]))).regs.status = 0x122#32 ∧
    (after (exec .decode (bench 0x1000#32 0x2000#32 [0x01, 0x01, 0x00, 0x01]))).regs.status = 0x112#32 := by decide
/-- E-23, D-26 and D-27: a failing read counts up to the first zero only. -/
theorem test_bus_errors :
    (after (exec .encode (refusing (bench 0x1000#32 0x2000#32 [0x11]) [] [⟨0x2000, 1⟩]))).regs.status = 0x123#32 ∧
    (after (exec .decode (refusing (bench 0x1000#32 0x2000#32 [0x01, 0x01]) [⟨0x1001, 1⟩] []))).regs.status = 0x113#32 ∧
    (after (exec .decode (refusing (bench 0x1000#32 0x2000#32 [0x00, 0x11]) [⟨0x1001, 1⟩] []))).regs.status = 0x112#32 := by
  decide

/-! ## Arguments and the other commands -/

/-- E-17 to E-22. -/
theorem test_arguments :
    (after (exec .encode (argued 0x1000#32 0x2000#32 0x80000000#32))).regs.status = 0x141#32 ∧
    (after (exec .encode (argued 0x1000#32 0#32 1#32))).regs.status = 0x111#32 ∧
    (after (exec .encode (argued 0#32 0x2000#32 1#32))).regs.status = 0x121#32 ∧
    (after (exec .encode (argued 0x1000#32 0x1000#32 4#32))).regs.status = 0x131#32 ∧
    (after (exec .encode (argued 0#32 0#32 1#32))).regs.status = 0x111#32 ∧
    (after (exec .encode (argued 0x1000#32 0x1000#32 0#32))).regs.status = 0x131#32 := by decide

theorem test_nop_A06 : exec (.nop 3#31) State.reset = .next State.reset := rfl
theorem test_badcmd_op_A07 : (after (exec (.badcmdOp .op10) State.reset)).regs = ⟨0#32, 0#32, 0#32, 0x114#32, 0#32⟩ := by
  decide
theorem test_badcmd_bits_A09 :
    (after (exec (.badcmdBits 1#29 0#2) State.reset)).regs = ⟨0#32, 0#32, 0#32, 0x124#32, 0#32⟩ := by decide

/-! ## Register accesses -/

theorem test_wr_src_A02 : replyOf (after (exec (.wrSrc 0x12345678#32) State.reset)) .rdSrc = some 0x12345678#32 := by decide
theorem test_wr_dst : replyOf (after (exec (.wrDst 0x2000#32) State.reset)) .rdDst = some 0x2000#32 := by decide
theorem test_wr_len_A03 : replyOf (after (exec (.wrLen 0x80000000#32) State.reset)) .rdLen = some 0x80000000#32 := by decide
/-- A-04 and A-10. -/
theorem test_wr_ctrl :
    (after (exec (.wrCtrl 3#32) State.reset)).regs.status = 0x111#32 ∧
    replyOf (after (exec (.wrCtrl 3#32) State.reset)) .rdCtrl = some 0#32 ∧
    (after (exec (.wrCtrl 0xFFFFFFFF#32) State.reset)).regs.status = 0x124#32 := by decide
/-- A-12, from the state an ENCODE left. -/
theorem test_read_only_A12 :
    replyOf (after (exec (.wrStatus 0#32) (after (exec .encode rawBench)))) .rdStatus = some 0x100#32 ∧
    replyOf (after (exec (.wrResult 0#32) (after (exec .encode rawBench)))) .rdResult = some 5#32 := by decide
theorem test_rsvd_A14 :
    replyOf (after (exec (.wrRsvd .x18 0xFFFFFFFF#32) State.reset)) (.rdRsvd .x18) = some 0#32 := by decide

/-! ## Steps -/

/-- A command word placed where the next step takes it runs in that step (A-11). -/
theorem test_step_command :
    (after (step (State.reset.withFetchWord 32 0x00000001))).regs.status = 0x111#32 := by decide
/-- A read of the window is answered; a byte access of it is refused; one beyond it is not the block's (R110). -/
theorem test_step_accesses :
    (after (step { State.reset with inbox := [.access ⟨.read, 0x40000010, .w32, 0#32⟩ []] })).reply = some 0#32 ∧
    step { State.reset with inbox := [.access ⟨.read, 0x4000001F, .w8, 0#32⟩ []] } = .refused .accessSize ∧
    step { State.reset with inbox := [.access ⟨.read, 0x40000020, .w32, 0#32⟩ []] } = .next State.reset :=
  ⟨rfl, rfl, rfl⟩
/-- Another agent's byte read of the window is refused like a byte store of it (R89); one of ordinary memory goes by. -/
theorem test_step_agent_reads :
    step { State.reset with inbox := [.access (command 0#32) [.read 0x4000001F#32]] } = .refused .accessSize ∧
    step { State.reset with inbox := [.access (command 0#32) [.write 0x4000001F#32 7#8]] } = .refused .accessSize ∧
    step { State.reset with inbox := [.access (command 0#32) [.read 0x40000020#32]] } = .next State.reset :=
  ⟨rfl, rfl, rfl⟩

/-- A reset clears the registers and keeps memory (R260). -/
theorem test_step_reset :
    step { stuffedBench with inbox := [.reset] } = .next { State.reset with mem := stuffedBench.mem } := rfl
/-- A pseudo-instruction is its six accesses (R91). -/
theorem test_cobs_enc :
    (AsmLine.cobsEnc 0x2000#32 0x1000#32 4#32).expand =
      [.wrDst 0x2000#32, .wrSrc 0x1000#32, .wrLen 4#32, .wrCtrl 1#32, .rdStatus, .rdResult] := by decide

/-! ## Witnesses: the hypotheses of each statement are met together

Each theorem is named after its statement. The helpers turn the two checks of a command into what the statements assume. -/

theorem defined_of {rr wr : Region} {s : State} (h : commandFault rr wr s = none) : RegionsDefined rr wr s :=
  commandFault_eq_none.mp h

theorem valid_of {s : State} (h : checkArgs (operands s) = none) : ArgsValid s :=
  checkArgs_eq_none.mp h

theorem busFine_of {rr wr : Region} {s : State} (hr : s.plat.readErrors = []) (hw : s.plat.writeErrors = []) :
    BusFine rr wr s := by
  constructor <;> intro a _ <;> simp [Platform.busOk, hr, hw]

theorem raw_defined : ArgsValid rawBench ∧ RegionsDefined (readArea rawBench) (encodeArea rawBench) rawBench ∧
    BusFine (readArea rawBench) (encodeArea rawBench) rawBench :=
  ⟨valid_of (by decide), defined_of (by decide), busFine_of rfl rfl⟩

theorem stuffed_defined : ArgsValid stuffedBench ∧
    RegionsDefined (readArea stuffedBench) (decodeArea stuffedBench) stuffedBench ∧
    BusFine (readArea stuffedBench) (decodeArea stuffedBench) stuffedBench :=
  ⟨valid_of (by decide), defined_of (by decide), busFine_of rfl rfl⟩

theorem broken_defined : ArgsValid brokenBench ∧
    RegionsDefined (readArea brokenBench) (decodeArea brokenBench) brokenBench ∧
    BusFine (readArea brokenBench) (decodeArea brokenBench) brokenBench :=
  ⟨valid_of (by decide), defined_of (by decide), busFine_of rfl rfl⟩

/-- A queue that starts with this event. -/
def awaiting (s : State) (e : HostEvent) : State := { s with inbox := [e] }

/-! ### Reset and the step -/

theorem witness_ResetClearsRegistersAndKeepsMemory : (awaiting rawBench .reset).inbox = .reset :: [] := rfl

theorem witness_StepKeepsTheInvariant :
    MachineInv (awaiting rawBench (.access (command 1#32) [.write 0x3000#32 7#8])) ∧
    ∃ t, step (awaiting rawBench (.access (command 1#32) [.write 0x3000#32 7#8])) = .next t :=
  ⟨⟨by decide, .inl rfl, fun _ => rfl, rfl⟩, _, next_after (by decide)⟩

theorem witness_StepKeepsThePlatform : ∃ t, step (awaiting brokenBench (.access (command 3#32) [])) = .next t :=
  ⟨_, next_after (by decide)⟩

theorem witness_StepPerformsTheDecodedAccess :
    decodeBus State.reset.plat.regBase (command 5#32) = .instr (.wrCtrl 5#32) ∧
    (awaiting State.reset (.access (command 5#32) [.read 0x10#32])).inbox = .access (command 5#32) [.read 0x10#32] :: [] := by
  decide

/-- The addresses at the two ends of the window, one below it, one above it, and one that reaches into it from below. -/
theorem witness_AccessesAreWholeAlignedWordsOfTheWindow :
    let base := State.reset.plat.regBase
    (0x3FFFFFFC + Width.w32.bytes ≤ base ∨ base + 0x20 ≤ 0x3FFFFFFC) ∧
    (0x40000020 + Width.w32.bytes ≤ base ∨ base + 0x20 ≤ 0x40000020) ∧
    (0x3FFFFFFD < base ∧ base < 0x3FFFFFFD + Width.w32.bytes) ∧
    (base ≤ 0x40000000 ∧ 0x40000000 < base + 0x20 ∧ Width.w8 ≠ .w32) ∧
    (base ≤ 0x4000001F ∧ 0x4000001F < base + 0x20 ∧ (0x4000001F - base) % 4 ≠ 0) ∧
    (base ≤ 0x4000001C ∧ 0x4000001C < base + 0x20 ∧ (0x4000001C - base) % 4 = 0) ∧
    (awaiting State.reset (.access (command 1#32) [.write 0x10#32 7#8])).inbox =
      .access (command 1#32) [.write 0x10#32 7#8] :: [] := by decide

theorem witness_PlacedCommandWordRunsNext : State.reset.concurrent = [] := rfl

/-! ### Decoding -/

theorem witness_EveryControlWordDecodes :
    (0xFFFFFFFE#32).toNat % 2 = 0 ∧ ((9#32).toNat % 2 = 1 ∧ 8 ≤ (9#32).toNat) ∧
    ((0xFFFFFFFF#32).toNat % 2 = 1 ∧ 8 ≤ (0xFFFFFFFF#32).toNat) := by decide

theorem witness_MatchMaskTableIsDecodeCtrl : (3#32 = 0x00000001#32 ∨ 3#32 = 0x00000003#32) := by decide

theorem witness_DecodingAnEncodingGivesTheInstruction :
    (Instr.badcmdBits 0x1FFFFFFF#29 3#2).wellFormed = true ∧ encode (.nop 0x7FFFFFFF#31) = .ctrl 0xFFFFFFFE#32 ∧
    encode (.rdRsvd .x1C) = .mmio ⟨.read, 0x1C#5, .w32, 0#32⟩ := by decide

theorem witness_EncodingADecodedWordGivesTheWord :
    decodeMmio ⟨.write, 0x1C#5, .w32, 5#32⟩ = .ok (.wrRsvd .x1C 5#32) ∧
    decodeMmio ⟨.read, 0x00#5, .w32, 5#32⟩ = .ok .rdSrc := by decide

/-! ### Register accesses and commands -/

theorem witness_NopChangesNothing : (0x00000000#32).getLsbD 0 = false ∧ (0xFFFFFFFE#32).getLsbD 0 = false := by decide

theorem witness_BadCommandIsRecorded :
    ((9#32).getLsbD 0 = true ∧ (9#32).extractLsb' 3 29 ≠ 0#29) ∧
    ((0xFFFFFFFF#32).getLsbD 0 = true ∧ (0xFFFFFFFF#32).extractLsb' 3 29 ≠ 0#29) ∧
    ((5#32).getLsbD 0 = true ∧ (5#32).extractLsb' 3 29 = 0#29 ∧ (5#32).getLsbD 2 = true) := by decide

theorem witness_ControlWritePerformsItsCommand :
    decodeCommand 0#32 = .nop ∧ decodeCommand 7#32 = .badcmd .reservedOp ∧ decodeCommand 1#32 = .encode ∧
    decodeCommand 3#32 = .decode := by decide

theorem witness_OnlyCommandsChangeStatusAndResult :
    (∃ t, exec (.wrLen 0xFFFFFFFF#32) rawBench = .next t) ∧ (∃ t, exec (.wrCtrl 6#32) rawBench = .next t) ∧
    decodeCommand 6#32 = .nop :=
  ⟨⟨_, rfl⟩, ⟨_, rfl⟩, by decide⟩

/-- One state for each clause; the lengths are the boundary ones, 0 and the most negative. -/
theorem witness_ArgumentCausesAreReportedInOrder :
    (argued 0#32 0#32 1#32).regs.dst = 0#32 ∧
    ((argued 0#32 1#32 1#32).regs.dst ≠ 0#32 ∧ (argued 0#32 1#32 1#32).regs.src = 0#32) ∧
    ((argued 1#32 1#32 0#32).regs.dst ≠ 0#32 ∧ (argued 1#32 1#32 0#32).regs.src = (argued 1#32 1#32 0#32).regs.dst) ∧
    ((argued 1#32 2#32 0#32).regs.src ≠ (argued 1#32 2#32 0#32).regs.dst ∧ (argued 1#32 2#32 0#32).regs.len.toInt ≤ 0) ∧
    (argued 1#32 2#32 0x80000000#32).regs.len.toInt ≤ 0 ∧ ArgsValid (argued 1#32 2#32 1#32) ∧
    ArgsValid (argued 1#32 2#32 0x7FFFFFFF#32) :=
  ⟨by decide, by decide, by decide, by decide, by decide, valid_of (by decide), valid_of (by decide)⟩

theorem witness_CommandOnResetRegistersFails : State.reset.regs = Regs.reset := rfl

theorem witness_CommandsKeepTheArguments :
    (∃ t, exec .encode rawBench = .next t) ∧ (∃ t, exec .decode stuffedBench = .next t) ∧
    (∃ t, exec (.wrCtrl 3#32) stuffedBench = .next t) :=
  ⟨⟨_, next_after (by decide)⟩, ⟨_, next_after (by decide)⟩, ⟨_, next_after (by decide)⟩⟩

/-- The first addresses beyond the two ends of each write region, and arguments that are not valid. -/
theorem witness_CommandsChangeOnlyTheirWriteRegion :
    ((∃ t, exec .encode rawBench = .next t) ∧
      (encodeWriteRegion (operands rawBench) rawBench).contains 0x1FFF = false ∧
      (encodeWriteRegion (operands rawBench) rawBench).contains 0x2004 = true ∧
      (encodeWriteRegion (operands rawBench) rawBench).contains 0x2005 = false) ∧
    ((∃ t, exec .decode brokenBench = .next t) ∧
      (decodeWriteRegion (operands brokenBench)).contains 0x2004 = true ∧
      (decodeWriteRegion (operands brokenBench)).contains 0x2005 = false) ∧
    ((∃ r, checkArgs (operands State.reset) = some r) ∧ ∃ t, exec .encode State.reset = .next t) ∧
    ∃ t, exec (.badcmdOp .op10) State.reset = .next t :=
  ⟨⟨⟨_, next_after (by decide)⟩, by decide, by decide, by decide⟩, ⟨⟨_, next_after (by decide)⟩, by decide, by decide⟩,
    ⟨⟨.dstUnset, by decide⟩, ⟨_, next_after (by decide)⟩⟩, ⟨_, rfl⟩⟩

theorem witness_CommandsLeaveOnlyTheirOutcomes :
    (∃ t, exec .encode rawBench = .next t) ∧ (∃ t, exec .decode brokenBench = .next t) :=
  ⟨⟨_, next_after (by decide)⟩, ⟨_, next_after (by decide)⟩⟩

/-- Source bytes that end at the last address, others that wrap; a region with the last byte of the window; the last source
byte overwritten; another agent at the last byte of the write region; and one just beyond it. -/
theorem witness_UndefinedCommandsFault :
    let top := argued 0xFFFFFFFC#32 0x2000#32 4#32
    let wraps := argued 0xFFFFFFFD#32 0x2000#32 4#32
    let device := argued 0x4000001F#32 0x2000#32 4#32
    let meets := argued 0x1000#32 0x1003#32 4#32
    let disturbed := { rawBench with concurrent := [.read 0x2004#32] }
    let beside := { rawBench with concurrent := [.read 0x2005#32] }
    (ArgsValid top ∧ RegionsDefined (readArea top) (encodeArea top) top) ∧
    (ArgsValid wraps ∧ ¬ (readArea wraps).base + (readArea wraps).size ≤ 2 ^ 32) ∧
    (ArgsValid device ∧ (readArea device).base + (readArea device).size ≤ 2 ^ 32 ∧
      ¬ OrdinaryArea device.plat (readArea device)) ∧
    (ArgsValid meets ∧ ¬ ∀ a, ¬ (within (readArea meets) a ∧ within (decodeArea meets) a)) ∧
    (ArgsValid disturbed ∧ ¬ ∀ e ∈ disturbed.concurrent, Undisturbing (readArea disturbed) (encodeArea disturbed) e) ∧
    (ArgsValid beside ∧ RegionsDefined (readArea beside) (encodeArea beside) beside) := by
  refine ⟨⟨valid_of (by decide), defined_of (by decide)⟩, ⟨valid_of (by decide), by decide⟩,
    ⟨valid_of (by decide), by decide, fun h => ?_⟩, ⟨valid_of (by decide), fun h => ?_⟩,
    ⟨valid_of (by decide), fun h => ?_⟩, ⟨valid_of (by decide), defined_of (by decide)⟩⟩
  · exact (h 0x4000001F ⟨by decide, by decide⟩).1 ⟨by decide, by decide⟩
  · exact h 0x1003 ⟨⟨by decide, by decide⟩, by decide, by decide⟩
  · exact h (.read 0x2004#32) (List.mem_singleton.mpr rfl) ⟨by decide, by decide⟩

theorem witness_ControlWritesComplete :
    decodeCommand 2#32 = .nop ∧ decodeCommand 8#32 = .nop ∧ decodeCommand 9#32 = .badcmd .reservedBits ∧
    ¬ ArgsValid (argued 1#32 2#32 0#32) ∧
    (decodeCommand 1#32 = .encode ∧ ArgsValid rawBench ∧
      RegionsDefined (readArea rawBench) (encodeArea rawBench) rawBench ∧
      BusFine (readArea rawBench) (encodeArea rawBench) rawBench) ∧
    (decodeCommand 3#32 = .decode ∧ ArgsValid stuffedBench ∧
      RegionsDefined (readArea stuffedBench) (decodeArea stuffedBench) stuffedBench ∧
      BusFine (readArea stuffedBench) (decodeArea stuffedBench) stuffedBench ∧ 0#8 ∉ source stuffedBench) ∧
    RegionsDefined (readArea brokenBench) (decodeArea brokenBench) brokenBench :=
  ⟨by decide, by decide, by decide, fun h => absurd h.lenPos (by decide), ⟨by decide, raw_defined⟩,
    ⟨by decide, stuffed_defined.1, stuffed_defined.2.1, stuffed_defined.2.2, by decide⟩, broken_defined.2.1⟩

/-! ### ENCODE -/

theorem witness_EncodeWritesTheSegmentForm : ArgsValid rawBench ∧
    RegionsDefined (readArea rawBench) (encodeArea rawBench) rawBench ∧
    BusFine (readArea rawBench) (encodeArea rawBench) rawBench := raw_defined

theorem witness_EncodeResultIsTheExactLength : ArgsValid rawBench ∧
    RegionsDefined (readArea rawBench) (encodeArea rawBench) rawBench ∧
    BusFine (readArea rawBench) (encodeArea rawBench) rawBench := raw_defined

theorem witness_EncodeOutputHoldsNoZero : ArgsValid rawBench ∧
    RegionsDefined (readArea rawBench) (encodeArea rawBench) rawBench ∧
    BusFine (readArea rawBench) (encodeArea rawBench) rawBench := raw_defined

/-- S-2: two zeros. -/
theorem witness_EncodeOfZerosIsOnes :
    let s := argued 0x1000#32 0x2000#32 2#32
    ArgsValid s ∧ (∀ b ∈ source s, b = 0x00#8) ∧
    RegionsDefined (readArea s) ⟨s.regs.dst.toNat, (source s).length + 1⟩ s ∧
    BusFine (readArea s) ⟨s.regs.dst.toNat, (source s).length + 1⟩ s :=
  ⟨valid_of (by decide), by decide, defined_of (by decide), busFine_of rfl rfl⟩

/-- Bytes placed in memory are read back: the source of a state built by `bench`. -/
theorem read_placed (a k : Nat) (xs : List Byte) (h : k < a) : Memory.read (placed a xs) k = 0x00#8 := by
  induction xs generalizing a with
  | nil => rfl
  | cons b bs ih =>
    unfold placed
    split
    · exact ih (a + 1) (by omega)
    · rw [Memory.read, if_neg (by simp only; omega)]
      exact ih (a + 1) (by omega)

theorem readBytes_placed_step (a k n : Nat) (b : Byte) (m : Memory) (h : a < k) :
    Memory.readBytes ((a, b) :: m) k n = Memory.readBytes m k n := by
  induction n generalizing k with
  | zero => rfl
  | succ n ih =>
    rw [Memory.readBytes, Memory.readBytes, ih (k + 1) (by omega), Memory.read, if_neg (by simp only; omega)]

theorem readBytes_placed (a : Nat) (xs : List Byte) : Memory.readBytes (placed a xs) a xs.length = xs := by
  induction xs generalizing a with
  | nil => rfl
  | cons b bs ih =>
    unfold placed
    split
    · rename_i h
      rw [List.length_cons, Memory.readBytes, ih (a + 1), read_placed (a + 1) a bs (by omega), h]
    · rw [List.length_cons, Memory.readBytes, readBytes_placed_step _ _ _ _ _ (by omega), ih (a + 1), Memory.read, if_pos rfl]

theorem source_bench (src dst : Word) (xs : List Byte) (h : xs.length < 2 ^ 31) : source (bench src dst xs) = xs := by
  have hl : (BitVec.ofNat 32 xs.length).toInt.toNat = xs.length := by
    rw [BitVec.toInt_eq_toNat_of_lt (by rw [BitVec.toNat_ofNat]; omega), BitVec.toNat_ofNat]
    omega
  show Memory.readBytes (placed src.toNat xs) src.toNat (BitVec.ofNat 32 xs.length).toInt.toNat = xs
  rw [hl, readBytes_placed]

/-- What a bench with source bytes at 0x1000 and destination 0x2000 is, for a source that stays below the destination. -/
theorem bench_defined (xs : List Byte) (h1 : 1 ≤ xs.length) (h2 : xs.length ≤ 0x1000) :
    ArgsValid (bench 0x1000#32 0x2000#32 xs) ∧ readArea (bench 0x1000#32 0x2000#32 xs) = ⟨0x1000, xs.length⟩ ∧
    decodeArea (bench 0x1000#32 0x2000#32 xs) = ⟨0x2000, xs.length⟩ ∧
    ∀ n, n ≤ 0x100000 → RegionsDefined ⟨0x1000, xs.length⟩ ⟨0x2000, n⟩ (bench 0x1000#32 0x2000#32 xs) := by
  have hn : (BitVec.ofNat 32 xs.length).toInt = xs.length := by
    rw [BitVec.toInt_eq_toNat_of_lt (by rw [BitVec.toNat_ofNat]; omega), BitVec.toNat_ofNat]
    omega
  have hd : (bench 0x1000#32 0x2000#32 xs).plat.devices = [] := rfl
  have hwin : (bench 0x1000#32 0x2000#32 xs).plat.window = ⟨0x40000000, 0x20⟩ := rfl
  have hc : (bench 0x1000#32 0x2000#32 xs).concurrent = [] := rfl
  refine ⟨⟨by simp [bench], by simp [bench], by simp [bench], by simp only [bench, hn]; omega⟩, by simp [readArea, bench, hn],
    by simp [decodeArea, bench, hn], fun n h3 => ?_⟩
  refine ⟨by simp only; omega, by simp only; omega, fun a ha => ⟨?_, by simp [hd]⟩, fun a ha => ⟨?_, by simp [hd]⟩,
    fun a ha => ?_, by simp [hc]⟩
  · rw [hwin]; simp only [within] at *; omega
  · rw [hwin]; simp only [within] at *; omega
  · simp only [within] at *; omega

/-- A run of `n` bytes 0x11 at 0x1000, to be encoded to 0x2000. -/
def runBench (n : Nat) : State := bench 0x1000#32 0x2000#32 (List.replicate n 0x11#8)

theorem runBench_defined (n : Nat) (h1 : 1 ≤ n) (h2 : n ≤ 1000) :
    ArgsValid (runBench n) ∧ 0x00#8 ∉ source (runBench n) ∧ (source (runBench n)).length = n ∧
    RegionsDefined (readArea (runBench n)) (encodeArea (runBench n)) (runBench n) ∧
    BusFine (readArea (runBench n)) (encodeArea (runBench n)) (runBench n) := by
  have hl : (List.replicate n 0x11#8).length = n := List.length_replicate
  have hs : source (runBench n) = List.replicate n 0x11#8 := source_bench _ _ _ (by omega)
  have hz : 0x00#8 ∉ List.replicate n 0x11#8 := by simp
  obtain ⟨hv, hr, -, hd⟩ := bench_defined (List.replicate n 0x11#8) (by omega) (by omega)
  have hw : encodeArea (runBench n) = ⟨0x2000, n + 1 + n / 254⟩ := by
    simp only [encodeArea, hs, segmentLength, segments_of_zero_free hz, List.map_cons, List.map_nil, List.sum_cons,
      List.sum_nil, hl]
    rfl
  refine ⟨hv, hs ▸ hz, by rw [hs, hl], ?_, busFine_of rfl rfl⟩
  rw [hw]
  show RegionsDefined (readArea (bench _ _ _)) _ _
  rw [hr]
  exact hd _ (by omega)

/-- The lengths where the clauses meet: 253, 254 and 255. -/
theorem witness_EncodeOfZeroFreeInput :
    ((source (runBench 253)).length ≤ 253 ∧ 0x00#8 ∉ source (runBench 253) ∧ ArgsValid (runBench 253)) ∧
    ((source (runBench 254)).length = 254 ∧ 0x00#8 ∉ source (runBench 254) ∧
      RegionsDefined (readArea (runBench 254)) (encodeArea (runBench 254)) (runBench 254)) ∧
    (255 ≤ (source (runBench 255)).length ∧ 0x00#8 ∉ source (runBench 255) ∧
      RegionsDefined (readArea (runBench 255)) (encodeArea (runBench 255)) (runBench 255)) := by
  obtain ⟨a1, a2, a3, -, -⟩ := runBench_defined 253 (by omega) (by omega)
  obtain ⟨-, b2, b3, b4, -⟩ := runBench_defined 254 (by omega) (by omega)
  obtain ⟨-, c2, c3, c4, -⟩ := runBench_defined 255 (by omega) (by omega)
  exact ⟨⟨by omega, a2, a1⟩, ⟨b3, b2, b4⟩, by omega, c2, c4⟩

/-! ### DECODE -/

theorem witness_DecodeWritesTheDecodedBlocks : ArgsValid stuffedBench ∧
    RegionsDefined (readArea stuffedBench) (decodeArea stuffedBench) stuffedBench ∧
    BusFine (readArea stuffedBench) (decodeArea stuffedBench) stuffedBench ∧ 0x00#8 ∉ source stuffedBench :=
  ⟨stuffed_defined.1, stuffed_defined.2.1, stuffed_defined.2.2, by decide⟩

/-- D-06, and an ENCODE that succeeds. -/
theorem witness_OneByteInputDecodesToNothing :
    let s := bench 0x1000#32 0x2000#32 [0x01]
    (ArgsValid s ∧ RegionsDefined (readArea s) (decodeArea s) s ∧ BusFine (readArea s) (decodeArea s) s ∧
      source s = [0x01#8]) ∧
    ∃ t, exec .encode rawBench = .next t ∧ t.regs.status = 0x00000100#32 :=
  ⟨⟨valid_of (by decide), defined_of (by decide), busFine_of rfl rfl, by decide⟩, _, next_after (by decide), by decide⟩

/-- D-08. -/
theorem witness_TruncatedBlockIsClamped :
    let s := bench 0x1000#32 0x2000#32 [0x05, 0x11, 0x22]
    ArgsValid s ∧ RegionsDefined (readArea s) (decodeArea s) s ∧ BusFine (readArea s) (decodeArea s) s ∧
    source s = 0x05#8 :: [0x11#8, 0x22#8] ∧ [0x11#8, 0x22#8].length ≤ (0x05#8).toNat - 1 :=
  ⟨valid_of (by decide), defined_of (by decide), busFine_of rfl rfl, by decide, by decide⟩

/-- D-18's first zero stands in the place of an overhead byte, D-20's in a literal run. -/
theorem witness_DecodeFailsExactlyOnAZero :
    BlockBoundary [] ∧ BlockBoundary [0x03, 0x11, 0x22, 0x02, 0x33] ∧ ¬ BlockBoundary [0x03, 0x11] ∧
    source brokenBench = [0x03, 0x11] ++ 0x00#8 :: [0x02, 0x33] ∧ ArgsValid brokenBench ∧
    RegionsDefined (readArea brokenBench) (decodeArea brokenBench) brokenBench ∧
    BusFine (readArea brokenBench) (decodeArea brokenBench) brokenBench := by
  refine ⟨.inl rfl, .inr ⟨[⟨0x03, [0x11, 0x22]⟩, ⟨0x02, [0x33]⟩], ?_, rfl, by decide⟩, ?_, by decide, broken_defined⟩
  · exact ⟨by decide, by decide, by decide, by decide, by decide, by decide⟩
  · rintro (h | ⟨bs, ht, hb, hl⟩)
    · cases h
    · cases bs with
      | nil => cases hb
      | cons b bs =>
        have h1 := hl b List.mem_cons_self
        have hb : b.code :: (b.literals ++ blockBytes bs) = [0x03#8, 0x11#8] := hb
        obtain ⟨hc, hr⟩ := List.cons.inj hb
        have := congrArg List.length hr
        rw [hc] at h1
        simp [h1] at this
        omega

theorem witness_MalformedDecodeKeepsTheRest : ArgsValid brokenBench ∧
    RegionsDefined (readArea brokenBench) (decodeArea brokenBench) brokenBench ∧
    BusFine (readArea brokenBench) (decodeArea brokenBench) brokenBench ∧ 0x00#8 ∈ source brokenBench :=
  ⟨broken_defined.1, broken_defined.2.1, broken_defined.2.2, by decide⟩

/-- D-09 and D-10, with 254 literal bytes. -/
theorem witness_DecodeIsNotInjective :
    let a := List.replicate 254 0x11#8
    let s := bench 0x1000#32 0x2000#32 (0xFF#8 :: a)
    let u := bench 0x1000#32 0x2000#32 (0xFF#8 :: (a ++ [0x01#8]))
    a.length = 254 ∧ 0x00#8 ∉ a ∧ source s = 0xFF#8 :: a ∧ source u = 0xFF#8 :: (a ++ [0x01#8]) ∧
    (ArgsValid s ∧ RegionsDefined (readArea s) (decodeArea s) s ∧ BusFine (readArea s) (decodeArea s) s) ∧
    (ArgsValid u ∧ RegionsDefined (readArea u) (decodeArea u) u ∧ BusFine (readArea u) (decodeArea u) u) := by
  intro a s u
  have hl : a.length = 254 := List.length_replicate
  have h1 : (0xFF#8 :: a).length = 255 := by rw [List.length_cons, hl]
  have h2 : (0xFF#8 :: (a ++ [0x01#8])).length = 256 := by
    rw [List.length_cons, List.length_append, hl, List.length_singleton]
  obtain ⟨v1, r1, w1, d1⟩ := bench_defined (0xFF#8 :: a) (by omega) (by omega)
  obtain ⟨v2, r2, w2, d2⟩ := bench_defined (0xFF#8 :: (a ++ [0x01#8])) (by omega) (by omega)
  refine ⟨hl, fun h => absurd (List.eq_of_mem_replicate h) (by decide), source_bench _ _ _ (by omega),
    source_bench _ _ _ (by omega), ⟨v1, ?_, busFine_of rfl rfl⟩, ⟨v2, ?_, busFine_of rfl rfl⟩⟩
  · rw [r1, w1]
    exact d1 _ (by omega)
  · rw [r2, w2]
    exact d2 _ (by omega)

theorem witness_DecodeAccessesBytesInOrder :
    [0x02#8, 0x11#8] ≠ [] ∧ (decodeRun 0x1000 0x2000 [0x02, 0x11]).ending = .success 1 := by decide

/-! ### Both commands -/

theorem witness_DecodeUndoesEncode :
    let u := withArgs (after (exec .encode rawBench)) rawBench.regs.dst 0x3000#32 (after (exec .encode rawBench)).regs.result
    (ArgsValid rawBench ∧ RegionsDefined (readArea rawBench) (encodeArea rawBench) rawBench ∧
      BusFine (readArea rawBench) (encodeArea rawBench) rawBench) ∧
    exec .encode rawBench = .next (after (exec .encode rawBench)) ∧
    ArgsValid u ∧ RegionsDefined (readArea u) (decodeArea u) u ∧ BusFine (readArea u) (decodeArea u) u :=
  ⟨raw_defined, next_after (by decide), valid_of (by decide), defined_of (by decide), busFine_of (by decide) (by decide)⟩

/-- A refused read of the last source byte, a refused write of the last output byte, and both. -/
theorem witness_EncodeReportsBusErrors :
    let r := refusing rawBench [⟨0x1003, 1⟩] []
    let w := refusing rawBench [] [⟨0x2004, 1⟩]
    let b := refusing rawBench [⟨0x1003, 1⟩] [⟨0x2004, 1⟩]
    (ArgsValid r ∧ RegionsDefined (readArea r) (encodeArea r) r ∧ within (readArea r) 0x1003 ∧
      r.plat.busOk 0x1003 .read = false ∧ ∀ a, r.plat.busOk a .write = true) ∧
    (ArgsValid w ∧ RegionsDefined (readArea w) (encodeArea w) w ∧ within (encodeArea w) 0x2004 ∧
      w.plat.busOk 0x2004 .write = false ∧ ∀ a, w.plat.busOk a .read = true) ∧
    (within (readArea b) 0x1003 ∧ b.plat.busOk 0x1003 .read = false ∧ within (encodeArea b) 0x2004 ∧
      b.plat.busOk 0x2004 .write = false ∧ ArgsValid b ∧ RegionsDefined (readArea b) (encodeArea b) b) :=
  ⟨⟨valid_of (by decide), defined_of (by decide), ⟨by decide, by decide⟩, by decide, fun _ => rfl⟩,
    ⟨valid_of (by decide), defined_of (by decide), ⟨by decide, by decide⟩, by decide, fun _ => rfl⟩,
    ⟨by decide, by decide⟩, by decide, ⟨by decide, by decide⟩, by decide, valid_of (by decide), defined_of (by decide)⟩

/-- On `[03 11 00 02 33]`, whose run reads three bytes and writes one: a refused read of the first zero; a refused write of the
byte written; both; and a refused read after the zero (D-27) with a refused write of a byte never written. Then a refused write
of the last output byte of a zero-free source. -/
theorem witness_DecodeReportsBusErrors :
    let r := refusing brokenBench [⟨0x1002, 1⟩] []
    let w := refusing brokenBench [] [⟨0x2000, 1⟩]
    let b := refusing brokenBench [⟨0x1002, 1⟩] [⟨0x2000, 1⟩]
    let n := refusing brokenBench [⟨0x1003, 1⟩] [⟨0x2001, 1⟩]
    let z := refusing stuffedBench [] [⟨0x2003, 1⟩]
    let written := fun s : State => writtenAddresses (decodeRun s.regs.src.toNat s.regs.dst.toNat (source s)).trace
    (ArgsValid r ∧ RegionsDefined (readArea r) (decodeArea r) r ∧
      2 < readSpan (source r) ∧ r.plat.busOk 0x1002 .read = false ∧ ∀ a, r.plat.busOk a .write = true) ∧
    (ArgsValid w ∧ RegionsDefined (readArea w) (decodeArea w) w ∧
      0x2000 ∈ written w ∧ w.plat.busOk 0x2000 .write = false ∧ ∀ a, w.plat.busOk a .read = true) ∧
    (ArgsValid b ∧ RegionsDefined (readArea b) (decodeArea b) b ∧ b.plat.busOk 0x1002 .read = false ∧
      2 < readSpan (source b) ∧ 0x2000 ∈ written b ∧ b.plat.busOk 0x2000 .write = false) ∧
    (ArgsValid n ∧ RegionsDefined (readArea n) (decodeArea n) n ∧ readSpan (source n) = 3 ∧ written n = [0x2000] ∧
      n.plat.busOk 0x1003 .read = false ∧ n.plat.busOk 0x2001 .write = false ∧ n.plat.busOk 0x2000 .write = true) ∧
    (ArgsValid z ∧ RegionsDefined (readArea z) (decodeArea z) z ∧ Tiles [⟨0x03, [0x11, 0x22]⟩, ⟨0x02, [0x33]⟩] ∧
      blockBytes [⟨0x03, [0x11, 0x22]⟩, ⟨0x02, [0x33]⟩] = source z ∧ 0x2003 ∈ written z ∧
      z.plat.busOk 0x2003 .write = false ∧ ∀ a, z.plat.busOk a .read = true) :=
  ⟨⟨valid_of (by decide), defined_of (by decide), by decide, by decide, fun _ => rfl⟩,
    ⟨valid_of (by decide), defined_of (by decide), by decide, by decide, fun _ => rfl⟩,
    ⟨valid_of (by decide), defined_of (by decide), by decide, by decide, by decide, by decide⟩,
    ⟨valid_of (by decide), defined_of (by decide), by decide, by decide, by decide, by decide, by decide⟩,
    valid_of (by decide), defined_of (by decide), ⟨by decide, by decide, by decide, by decide, by decide, by decide⟩,
    by decide, by decide, by decide, fun _ => rfl⟩

/-- A buffer that ends at the last address, its accesses made backwards. -/
theorem witness_WriteOrderIsNotObservable :
    Memory.wf rawBench.mem = true ∧ [0x11#8] ≠ [] ∧ 0xFFFFFFFE + encodedLength [0x11#8] ≤ 2 ^ 32 ∧
    (encodeRun 0x1000 0xFFFFFFFE [0x11#8]).trace.reverse.Perm (encodeRun 0x1000 0xFFFFFFFE [0x11#8]).trace ∧
    0xFFFFFFFF + [0x11#8].length ≤ 2 ^ 32 ∧
    (decodeRun 0x1000 0xFFFFFFFF [0x11#8]).trace.reverse.Perm (decodeRun 0x1000 0xFFFFFFFF [0x11#8]).trace :=
  ⟨by decide, by decide, by decide, List.reverse_perm _, by decide, List.reverse_perm _⟩

theorem witness_RepeatedCommandLeavesTheSameState :
    Memory.wf rawBench.mem = true ∧ ∃ t, exec .encode rawBench = .next t ∧ t.regs.status = 0x00000100#32 :=
  ⟨by decide, _, next_after (by decide), by decide⟩

/-- Another STATUS and RESULT and another byte of memory. -/
theorem witness_ResultDependsOnArgumentsAndSourceOnly :
    let u := { rawBench with
      regs := { rawBench.regs with status := 0x112#32, result := 0#32 }
      mem := Memory.write rawBench.mem 0x1004 0x77#8 }
    u.regs.src = rawBench.regs.src ∧ u.regs.dst = rawBench.regs.dst ∧ u.regs.len = rawBench.regs.len ∧
    u.plat = rawBench.plat ∧ u.concurrent = rawBench.concurrent ∧ source u = source rawBench ∧
    ∃ t, exec .encode rawBench = .next t ∧ t.regs.status = 0x00000100#32 :=
  ⟨rfl, rfl, rfl, rfl, rfl, by decide, _, next_after (by decide), by decide⟩

/-! ### Reset during an access, other agents, several blocks -/

/-- An ENCODE and a DECODE beside another agent; one the agent disturbs; one with arguments that are not valid; a word that
performs neither; an access beyond the window; and one of a byte of it. -/
theorem witness_ResetDuringAnAccessAbandonsIt :
    let others := [AgentAccess.write 0x2005#32 0x55#8]
    let clash := [AgentAccess.write 0x1003#32 0x55#8]
    (awaiting rawBench (.resetDuring (command 1#32) others)).inbox = .resetDuring (command 1#32) others :: [] ∧
    (∀ w, decodeBus rawBench.plat.regBase (command w) = .instr (.wrCtrl w)) ∧
    decodeCommand 1#32 = .encode ∧ decodeCommand 3#32 = .decode ∧ decodeCommand 7#32 ≠ .encode ∧
    decodeCommand 7#32 ≠ .decode ∧ ArgsValid rawBench ∧ ArgsValid stuffedBench ∧ ¬ ArgsValid State.reset ∧
    RegionsDefined (readArea rawBench) (encodeArea rawBench) { rawBench with concurrent := others } ∧
    RegionsDefined (readArea stuffedBench) (decodeArea stuffedBench) { stuffedBench with concurrent := others } ∧
    (∃ u, agentAccesses { State.reset with mem := rawBench.mem } others = .next u) ∧
    ¬ RegionsDefined (readArea rawBench) (encodeArea rawBench) { rawBench with concurrent := clash } ∧
    decodeBus rawBench.plat.regBase ⟨.read, 0x40000020, .w32, 0#32⟩ = .notOurs ∧
    decodeBus rawBench.plat.regBase ⟨.read, 0x4000001F, .w8, 0#32⟩ = .rejected .accessSize :=
  ⟨rfl, fun _ => by simp [decodeBus, command, Width.bytes, rawBench, bench, State.reset, Platform.default,
      Config.defaultRegBase, Config.windowSize, decodeMmio, slotAt, writeInstr], by decide, by decide, by decide, by decide,
    raw_defined.1, stuffed_defined.1,
    fun h => h.dstSet rfl, defined_of (by decide), defined_of (by decide), ⟨_, next_after (by decide)⟩,
    fun h => (h.undisturbed (.write 0x1003#32 0x55#8) (List.mem_singleton.mpr rfl)).1 ⟨by decide, by decide⟩,
    by decide, by decide⟩

/-- The last address before the window, its first and last bytes, the first after it, and a device's byte. -/
theorem witness_StoresBetweenAccessesAreVisible :
    let s := { State.reset with plat := { State.reset.plat with devices := [⟨0x50000000, 1⟩] } }
    ¬ within s.plat.window (0x3FFFFFFF#32).toNat ∧ within s.plat.window (0x40000000#32).toNat ∧
    within s.plat.window (0x4000001F#32).toNat ∧ ¬ within s.plat.window (0x40000020#32).toNat ∧
    (∀ d ∈ s.plat.devices, ¬ within d (0x40000020#32).toNat) ∧
    (∃ d ∈ s.plat.devices, within d (0x50000000#32).toNat) ∧ ¬ within s.plat.window (0x50000000#32).toNat := by
  refine ⟨?_, ?_, ?_, ?_, ?_, ⟨_, List.mem_singleton.mpr rfl, ?_⟩, ?_⟩ <;>
    simp [within, Platform.window, State.reset, Platform.default, Config.defaultRegBase, Config.windowSize]

/-- Another agent reads a source byte and writes the byte after the output. -/
theorem witness_UndisturbingAgentsDoNotDisturbEncode :
    let others := [AgentAccess.read 0x1000#32, .write 0x2005#32 0x55#8]
    (awaiting rawBench (.access (command 1#32) others)).inbox = .access (command 1#32) others :: [] ∧
    decodeBus rawBench.plat.regBase (command 1#32) = .instr (.wrCtrl 1#32) ∧ decodeCommand 1#32 = .encode ∧
    ArgsValid rawBench ∧ RegionsDefined (readArea rawBench) (encodeArea rawBench) { rawBench with concurrent := others } ∧
    BusFine (readArea rawBench) (encodeArea rawBench) rawBench ∧
    (∀ b, AgentAccess.read b ∈ others → ¬ within rawBench.plat.window b.toNat) ∧
    ∀ b v, AgentAccess.write b v ∈ others →
      ¬ within rawBench.plat.window b.toNat ∧ ∀ d ∈ rawBench.plat.devices, ¬ within d b.toNat := by
  intro others
  refine ⟨rfl, by decide, by decide, raw_defined.1, defined_of (by decide), raw_defined.2.2, fun b h => ?_, fun b v h => ?_⟩
  · have hb : b = 0x1000#32 := by simpa [others] using h
    subst hb
    exact fun h => absurd h.1 (by decide)
  have hb : b = 0x2005#32 := by simp [others] at h; exact h.1
  subst hb
  exact ⟨fun h => absurd h.1 (by decide), fun d hd => by cases hd⟩

/-- Another agent reads a source byte and writes the byte after the write region of a DECODE that fails. -/
theorem witness_UndisturbedCommandsEndAsIfAlone :
    let others := [AgentAccess.read 0x1000#32, .write 0x2005#32 0x55#8]
    (awaiting brokenBench (.access (command 3#32) others)).inbox = .access (command 3#32) others :: [] ∧
    decodeBus brokenBench.plat.regBase (command 3#32) = .instr (.wrCtrl 3#32) ∧ decodeCommand 3#32 = .decode ∧
    ArgsValid brokenBench ∧
    RegionsDefined (readArea brokenBench) (decodeArea brokenBench) { brokenBench with concurrent := others } ∧
    (∀ b, AgentAccess.read b ∈ others → ¬ within brokenBench.plat.window b.toNat) ∧
    ∀ b v, AgentAccess.write b v ∈ others →
      ¬ within brokenBench.plat.window b.toNat ∧ ∀ d ∈ brokenBench.plat.devices, ¬ within d b.toNat := by
  intro others
  refine ⟨rfl, by decide, by decide, broken_defined.1, defined_of (by decide), fun b h => ?_, fun b v h => ?_⟩
  · have hb : b = 0x1000#32 := by simpa [others] using h
    subst hb
    exact fun h => absurd h.1 (by decide)
  have hb : b = 0x2005#32 := by simp [others] at h; exact h.1
  subst hb
  exact ⟨fun h => absurd h.1 (by decide), fun d hd => by cases hd⟩

/-- The first and the last byte of the window, beside a register write that completes. -/
theorem witness_AgentByteAccessesOfTheWindowAreRefused :
    let others := [AgentAccess.read 0x4000001F#32, .write 0x40000000#32 7#8]
    within State.reset.plat.window (0x4000001F#32).toNat ∧ within State.reset.plat.window (0x40000000#32).toNat ∧
    (awaiting State.reset (.access (command 0#32) others)).inbox = .access (command 0#32) others :: [] ∧
    decodeBus State.reset.plat.regBase (command 0#32) = .instr (.wrCtrl 0#32) ∧
    ∃ u, exec (.wrCtrl 0#32) { State.reset with concurrent := others } = .next u :=
  ⟨⟨by decide, by decide⟩, ⟨by decide, by decide⟩, rfl, by decide, _, rfl⟩

/-- Two blocks: one encodes [11 22 00 33], the other decodes what lies at 0x3000. -/
def pair : System where
  blocks := [
    { regs := rawBench.regs, plat := Platform.default, inbox := [.access (command 1#32) []], reply := none },
    { regs := ⟨0x3000#32, 0x4000#32, 2#32, 0#32, 0#32⟩, plat := { Platform.default with regBase := 0x41000000 },
      inbox := [.access ⟨.write, 0x4100000C, .w32, 3#32⟩ []], reply := none }]
  mem := rawBench.mem ++ [(0x3000, 0x02#8), (0x3001, 0x44#8)]
  draws := 0

/-- The system after a step, itself where the step stops. -/
def systemAfter (y : System) (k : Nat) : System :=
  match y.stepBlock k with
  | .next z => z
  | .fault _ => y
  | .refused _ => y

/-- The first and the last byte of the second block's window, and a halfword access of it, in the first block's events. -/
theorem witness_AccessesOfASiblingWindowAreRefused :
    (∃ c, pair.blocks[1]? = some c ∧ within c.plat.window (0x41000000#32).toNat ∧
      within c.plat.window (0x4100001F#32).toNat ∧
      decodeBus c.plat.regBase ⟨.read, 0x41000010, .w16, 0#32⟩ = .rejected .accessSize) ∧
    ∃ b, pair.blocks[0]? = some b ∧ b.inbox ≠ [] :=
  ⟨⟨_, rfl, ⟨by decide, by decide⟩, ⟨by decide, by decide⟩, by decide⟩, _, rfl, by decide⟩

/-- The pair with a NOP waiting in each block while another agent reads a byte. -/
def askedPair (x : Word) : System :=
  { pair with blocks := pair.blocks.map fun b => { b with inbox := [.access (command 0#32) [.read x]] } }

/-- Another agent's byte read of the second block's window is refused in the first block's step (R89); a read just beyond that
window goes by. -/
theorem test_sibling_window :
    (askedPair 0x4100001F#32).stepBlock 0 = .refused .accessSize ∧
    (askedPair 0x41000020#32).stepBlock 0 = .next (systemAfter (askedPair 0x41000020#32) 0) :=
  ⟨rfl, rfl⟩

theorem witness_BlocksShareOnlyMemory : pair.stepBlock 0 = .next (systemAfter pair 0) := rfl

theorem witness_DisjointCommandsOfTwoBlocksCommute :
    Memory.wf pair.mem = true ∧
    (pair.blocks.map Block.inbox = [[.access (busAccess 0x40000000 (.ctrl 1#32)) []],
      [.access (busAccess 0x41000000 (.ctrl 3#32)) []]]) ∧
    (∀ b, pair.blocks[0]? = some b →
      commandRegions (decodeCommand 1#32) (pair.view b) = some (⟨0x1000, 4⟩, ⟨0x2000, 5⟩)) ∧
    (∀ b, pair.blocks[1]? = some b →
      commandRegions (decodeCommand 3#32) (pair.view b) = some (⟨0x3000, 2⟩, ⟨0x4000, 2⟩)) ∧
    (systemAfter pair 0).blocks.map (fun c => c.regs.status) = [0x100#32, 0#32] ∧
    (systemAfter pair 1).blocks.map (fun c => c.regs.status) = [0#32, 0x100#32] := by
  refine ⟨by decide, by decide, fun b hb => ?_, fun b hb => ?_, by decide, by decide⟩
  · cases hb; decide
  · cases hb; decide

end Sys2Proof.Tests
end

section
/-! PROOFS. What a host access that performs no command can do (10_state.md R34), and O19. -/

namespace Sys2Proof.Machine

/-! ## Storage of the argument slots -/

theorem writeSlot_src_kept (s : State) (v : Word) {k : Slot} (hk : k ≠ .src) :
    (writeSlot s v k).regs.src = s.regs.src := by
  cases k with
  | src => exact absurd rfl hk
  | _ => rfl

theorem writeSlot_dst_kept (s : State) (v : Word) {k : Slot} (hk : k ≠ .dst) :
    (writeSlot s v k).regs.dst = s.regs.dst := by
  cases k with
  | dst => exact absurd rfl hk
  | _ => rfl

theorem writeSlot_len_kept (s : State) (v : Word) {k : Slot} (hk : k ≠ .len) :
    (writeSlot s v k).regs.len = s.regs.len := by
  cases k with
  | len => exact absurd rfl hk
  | _ => rfl

/-! ## The accesses of each slot -/

/-- A read returns its slot to the host and does nothing else (R120 to R126). -/
theorem exec_readInstr (k : Slot) (s : State) : exec (readInstr k) s = .next (answer s (readSlot s k)) := by
  cases k <;> rfl

/-- A write stores to its slot (R111 to R113, R117 to R119); CTRL's is a command instead. -/
theorem exec_writeInstr {k : Slot} (hk : k ≠ .ctrl) (v : Word) (s : State) :
    exec (writeInstr v k) s = .next (writeSlot s v k) := by
  cases k with
  | ctrl => exact absurd rfl hk
  | _ => rfl

/-- An instruction of the command NOP, in either form, leaves the state as it is (R115). -/
theorem exec_of_nop {i : Instr} (hi : instrCommand i = some .nop) (s : State) : exec i s = .next s := by
  cases i with
  | nop ignored => rfl
  | wrCtrl w =>
    have hw : decodeCommand w = .nop := Option.some.inj hi
    simp [exec, execWrCtrl, hw]
  | _ => cases hi

/-- The instructions that perform no command are the reads and the writes of the other slots. -/
theorem access_of_no_command {i : Instr} (hi : instrCommand i = none) :
    (∃ k, i = readInstr k) ∨ ∃ v k, k ≠ .ctrl ∧ i = writeInstr v k := by
  cases i with
  | wrSrc v => exact .inr ⟨v, .src, by decide, rfl⟩
  | wrDst v => exact .inr ⟨v, .dst, by decide, rfl⟩
  | wrLen v => exact .inr ⟨v, .len, by decide, rfl⟩
  | wrStatus v => exact .inr ⟨v, .status, by decide, rfl⟩
  | wrResult v => exact .inr ⟨v, .result, by decide, rfl⟩
  | wrRsvd off v => exact .inr ⟨v, off.slot, by cases off <;> decide, by cases off <;> rfl⟩
  | rdSrc => exact .inl ⟨.src, rfl⟩
  | rdDst => exact .inl ⟨.dst, rfl⟩
  | rdLen => exact .inl ⟨.len, rfl⟩
  | rdCtrl => exact .inl ⟨.ctrl, rfl⟩
  | rdStatus => exact .inl ⟨.status, rfl⟩
  | rdResult => exact .inl ⟨.result, rfl⟩
  | rdRsvd off => exact .inl ⟨off.slot, by cases off <;> rfl⟩
  | encode | decode | nop | badcmdOp | badcmdBits | wrCtrl => cases hi

/-- All that an instruction without a command, or of the command NOP, can do. -/
theorem exec_cases_of_no_command {i : Instr} {s t : State} (hi : ∀ c, instrCommand i = some c → c = .nop)
    (h : exec i s = .next t) :
    t = s ∨ (∃ k, t = answer s (readSlot s k)) ∨ ∃ v k, i = writeInstr v k ∧ t = writeSlot s v k := by
  cases hc : instrCommand i with
  | some c =>
    rw [exec_of_nop (hi c hc ▸ hc)] at h
    exact .inl (Host.Outcome.next.inj h).symm
  | none =>
    obtain ⟨k, rfl⟩ | ⟨v, k, hk, rfl⟩ := access_of_no_command hc
    · rw [exec_readInstr] at h
      exact .inr (.inl ⟨k, (Host.Outcome.next.inj h).symm⟩)
    · rw [exec_writeInstr hk] at h
      exact .inr (.inr ⟨v, k, rfl, (Host.Outcome.next.inj h).symm⟩)

/-- The instructions O19 leaves out are those of a command other than NOP. -/
theorem instrCommand_eq_nop {i : Instr} {c : Command} (hop : ∀ op, i ≠ .badcmdOp op)
    (hbits : ∀ r o, i ≠ .badcmdBits r o) (henc : i ≠ .encode) (hdec : i ≠ .decode)
    (hctrl : ∀ w, i = .wrCtrl w → decodeCommand w = .nop) (hc : instrCommand i = some c) : c = .nop := by
  cases i with
  | encode => exact absurd rfl henc
  | decode => exact absurd rfl hdec
  | badcmdOp op => exact absurd rfl (hop op)
  | badcmdBits r o => exact absurd rfl (hbits r o)
  | nop ignored => exact (Option.some.inj hc).symm
  | wrCtrl w => exact (Option.some.inj hc).symm.trans (hctrl w rfl)
  | _ => cases hc

/-- Settles O19: a read changes the reply only, and a write of a slot keeps memory, STATUS, RESULT and every other slot. -/
theorem onlyCommandsChangeStatusAndResult : Obligations.OnlyCommandsChangeStatusAndResult := by
  intro i s t h hop hbits henc hdec hctrl
  obtain rfl | ⟨k, rfl⟩ | ⟨v, k, rfl, rfl⟩ :=
    exec_cases_of_no_command (fun _ => instrCommand_eq_nop hop hbits henc hdec hctrl) h
  · exact ⟨rfl, rfl, fun _ => rfl, fun _ => rfl, fun _ => rfl, fun _ => rfl⟩
  · exact ⟨rfl, rfl, fun _ => rfl, fun _ => rfl, fun _ => rfl, fun _ => rfl⟩
  · refine ⟨writeSlot_status_kept s v k, writeSlot_result_kept s v k, fun a => by rw [writeSlot_mem], fun hsrc => ?_,
      fun hdst => ?_, fun hlen => ?_⟩
    · exact writeSlot_src_kept s v (by rintro rfl; exact hsrc v rfl)
    · exact writeSlot_dst_kept s v (by rintro rfl; exact hdst v rfl)
    · exact writeSlot_len_kept s v (by rintro rfl; exact hlen v rfl)

end Sys2Proof.Machine
end

section
/-! PROOFS. `DecodeCtrl` by the value of its word (30_encoding.md R84), and O8. -/

namespace Sys2Proof.Machine

/-! ## The tested fields by the value of the word -/

/-- Bit 0 of a CTRL word is its parity. -/
theorem startBit_eq_zero_iff_even (w : Word) : w.extractLsb' 0 1 = 0#1 ↔ w.toNat % 2 = 0 := by
  simp [← BitVec.toNat_inj, BitVec.extractLsb'_toNat]

/-- Bits 31 to 3 of a CTRL word are zero exactly in the words below 8. -/
theorem reservedBits_eq_zero_iff_lt (w : Word) : w.extractLsb' 3 29 = 0#29 ↔ w.toNat < 8 := by
  have hw : w.toNat < 2 ^ 32 := w.isLt
  rw [← BitVec.toNat_inj, BitVec.extractLsb'_toNat, BitVec.toNat_ofNat, Nat.shiftRight_eq_div_pow]
  omega

/-! ## `DecodeCtrl` -/

/-- An even word is NOP whatever its other bits. -/
theorem decodeCommand_of_even {w : Word} (heven : w.toNat % 2 = 0) : decodeCommand w = .nop :=
  if_pos ((startBit_eq_zero_iff_even w).mpr heven)

/-- The test of the reserved bits comes before that of OP, so OP may be anything. -/
theorem decodeCommand_of_odd_of_ge {w : Word} (hodd : w.toNat % 2 = 1) (hge : 8 ≤ w.toNat) :
    decodeCommand w = .badcmd .reservedBits := by
  have hstart : w.extractLsb' 0 1 ≠ 0#1 := by
    rw [ne_eq, startBit_eq_zero_iff_even]
    omega
  have hrsvd : w.extractLsb' 3 29 ≠ 0#29 := by
    rw [ne_eq, reservedBits_eq_zero_iff_lt]
    omega
  rw [decodeCommand, if_neg hstart, if_pos hrsvd]

/-- Settles O8: the even words and the odd words from 8 on by the two field lemmas; the four odd words below 8 by evaluation. -/
theorem everyControlWordDecodes : Obligations.EveryControlWordDecodes := by
  intro w
  refine ⟨decodeCommand_of_even, decodeCommand_of_odd_of_ge, ?_, ?_, ?_⟩
  · rintro rfl
    rfl
  · rintro rfl
    rfl
  · rintro (rfl | rfl) <;> rfl

end Sys2Proof.Machine
end

section
/-! PROOFS. The aligned 32-bit accesses of each slot (40_register_access.md R111 to R126), and O13 to O15. -/

namespace Sys2Proof.Machine

open Sys2Proof.Safety

/-! ## The register map (30_encoding.md R81) -/

theorem slotAt_offset (k : Slot) : slotAt k.offset = some k := by
  cases k <;> rfl

theorem slot_offset_lt_windowSize (k : Slot) : k.offset.toNat < Config.windowSize :=
  k.offset.isLt

theorem decodeMmio_write_slot (k : Slot) (v : Word) :
    decodeMmio { dir := .write, off := k.offset, width := .w32, data := v } = .ok (writeInstr v k) := by
  simp [decodeMmio, slotAt_offset]

theorem decodeMmio_read_slot (k : Slot) (v : Word) :
    decodeMmio { dir := .read, off := k.offset, width := .w32, data := v } = .ok (readInstr k) := by
  simp [decodeMmio, slotAt_offset]

/-- The block takes the access of a slot as its own, wherever the window lies, and decodes it at the slot's offset. -/
theorem carries_of_decodeMmio {d : Dir} {k : Slot} {v : Word} {i : Instr}
    (h : decodeMmio { dir := d, off := k.offset, width := .w32, data := v } = .ok i) :
    Carries d k.offset.toNat v i := by
  intro base
  have hlt := slot_offset_lt_windowSize k
  have hbytes : Width.w32.bytes = 4 := rfl
  have hours : ¬ (base + k.offset.toNat + Width.w32.bytes ≤ base ∨
      base + Config.windowSize ≤ base + k.offset.toNat) := by omega
  have hstart : ¬ base + k.offset.toNat < base := by omega
  have hoff : BitVec.ofNat 5 (base + k.offset.toNat - base) = k.offset := by simp
  simp only [decodeBus, if_neg hours, if_neg hstart, hoff, h]

theorem carries_write_slot (k : Slot) (v : Word) : Carries .write k.offset.toNat v (writeInstr v k) :=
  carries_of_decodeMmio (decodeMmio_write_slot k v)

theorem carries_read_slot (k : Slot) (v : Word) : Carries .read k.offset.toNat v (readInstr k) :=
  carries_of_decodeMmio (decodeMmio_read_slot k v)

/-! ## The reserved offsets -/

/-- WR_RSVD is ignored (R119). -/
theorem exec_wrRsvd (off : ReservedOffset) (v : Word) (s : State) : exec (.wrRsvd off v) s = .next s :=
  congrArg Host.Outcome.next (writeSlot_reserved s v off)

/-- RD_RSVD reads zero (R126). -/
theorem exec_rdRsvd (off : ReservedOffset) (s : State) :
    exec (.rdRsvd off) s = .next (answer s 0x00000000#32) :=
  congrArg (fun w => Host.Outcome.next (answer s w)) (readSlot_reserved s off)

/-! ## The statements -/

/-- Settles O13: each is the write of an argument slot at the slot's offset. -/
theorem writesOfArgumentsStoreTheirValue : Obligations.WritesOfArgumentsStoreTheirValue := by
  intro v s
  refine ⟨carries_write_slot .src v, carries_write_slot .dst v, carries_write_slot .len v, ?_, ?_, ?_⟩
  · exact exec_writeInstr (k := .src) (by decide) v s
  · exact exec_writeInstr (k := .dst) (by decide) v s
  · exact exec_writeInstr (k := .len) (by decide) v s

/-- Settles O14: each is the write of a slot that stores nothing. -/
theorem writesOfReadOnlySlotsAreIgnored : Obligations.WritesOfReadOnlySlotsAreIgnored := by
  intro v off s
  refine ⟨carries_write_slot .status v, carries_write_slot .result v, carries_write_slot .rsvd18 v,
    carries_write_slot .rsvd1C v, ?_, ?_, exec_wrRsvd off v s⟩
  · exact exec_writeInstr (k := .status) (by decide) v s
  · exact exec_writeInstr (k := .result) (by decide) v s

/-- Settles O15: each is the read of a slot, which answers what the slot reads as. -/
theorem readsReturnTheRegister : Obligations.ReadsReturnTheRegister := by
  intro v off s
  exact ⟨carries_read_slot .src v, carries_read_slot .dst v, carries_read_slot .len v, carries_read_slot .ctrl v,
    carries_read_slot .status v, carries_read_slot .result v, carries_read_slot .rsvd18 v, carries_read_slot .rsvd1C v,
    exec_readInstr .src s, exec_readInstr .dst s, exec_readInstr .len s, exec_readInstr .ctrl s,
    exec_readInstr .status s, exec_readInstr .result s, exec_rdRsvd off s⟩

end Sys2Proof.Machine
end

section
/-! PROOFS. What an instruction of each command does, in its own form or as a CTRL write (40_register_access.md R114 to R116),
and O16 to O18. -/

namespace Sys2Proof.Machine

open Sys2Proof.Safety

/-! ## Commands in either form -/

theorem instrCommand_wrCtrl {w : Word} {c : Command} (hw : decodeCommand w = c) : instrCommand (.wrCtrl w) = some c :=
  congrArg some hw

/-- A rejected command is recorded (R116, R229). -/
theorem exec_of_badcmd {i : Instr} {r : BadReason} (hi : instrCommand i = some (.badcmd r)) (s : State) :
    exec i s = .next (finish (.badCommand r) 0x00000000#32 s) := by
  cases i with
  | badcmdOp op => cases hi; rfl
  | badcmdBits rsvd op => cases hi; rfl
  | wrCtrl w =>
    have hw : decodeCommand w = .badcmd r := Option.some.inj hi
    simp [exec, execWrCtrl, rejectCommand, hw]
  | _ => cases hi

theorem exec_of_encode {i : Instr} (hi : instrCommand i = some .encode) (s : State) :
    exec i s = encodeCommandEffect s := by
  cases i with
  | encode => rfl
  | wrCtrl w =>
    have hw : decodeCommand w = .encode := Option.some.inj hi
    simp [exec, execWrCtrl, hw]
  | _ => cases hi

theorem exec_of_decode {i : Instr} (hi : instrCommand i = some .decode) (s : State) :
    exec i s = decodeCommandEffect s := by
  cases i with
  | decode => rfl
  | wrCtrl w =>
    have hw : decodeCommand w = .decode := Option.some.inj hi
    simp [exec, execWrCtrl, hw]
  | _ => cases hi

/-- Instructions of one command answer alike: the bits their words leave free have no effect. -/
theorem exec_congr_command {i j : Instr} {c : Command} (hi : instrCommand i = some c) (hj : instrCommand j = some c)
    (s : State) : exec i s = exec j s := by
  cases c with
  | nop => rw [exec_of_nop hi, exec_of_nop hj]
  | encode => rw [exec_of_encode hi, exec_of_encode hj]
  | decode => rw [exec_of_decode hi, exec_of_decode hj]
  | badcmd r => rw [exec_of_badcmd hi, exec_of_badcmd hj]

/-- The table row of a CTRL word performs the word's command. -/
theorem instrCommand_decodeCtrl (w : Word) : instrCommand (decodeCtrl w) = some (decodeCommand w) := by
  unfold decodeCtrl
  cases decodeCommand w with
  | nop => rfl
  | encode => rfl
  | decode => rfl
  | badcmd r => cases r <;> rfl

/-! ## Rejections written out -/

theorem finish_reservedOp (s : State) :
    finish (.badCommand .reservedOp) 0#32 s = { s with regs := endsWith s.regs 0x00000114#32 0#32 } := by
  simp only [finish, status_reservedOp, endsWith]

theorem finish_reservedBits (s : State) :
    finish (.badCommand .reservedBits) 0#32 s = { s with regs := endsWith s.regs 0x00000124#32 0#32 } := by
  simp only [finish, status_reservedBits, endsWith]

/-! ## Bits of a CTRL word -/

theorem bit_zero_eq_true_iff_odd (w : Word) : w.getLsbD 0 = true ↔ w.toNat % 2 = 1 := by
  simp [BitVec.getLsbD]

theorem bit_zero_eq_false_iff_even (w : Word) : w.getLsbD 0 = false ↔ w.toNat % 2 = 0 := by
  rw [← Bool.not_eq_true, bit_zero_eq_true_iff_odd]
  omega

/-- With bits 31 to 3 zero, the start bit and bit 2 leave the words 5 and 7. -/
theorem eq_five_or_seven {w : Word} (hstart : w.getLsbD 0 = true) (hrsvd : w.extractLsb' 3 29 = 0#29)
    (hop : w.getLsbD 2 = true) : w = 0x00000005#32 ∨ w = 0x00000007#32 := by
  have hodd := (bit_zero_eq_true_iff_odd w).mp hstart
  have hlt := (reservedBits_eq_zero_iff_lt w).mp hrsvd
  have hfour : w.toNat / 4 % 2 = 1 := by
    simpa [BitVec.getLsbD, Nat.testBit_eq_decide_div_mod_eq] using hop
  simp only [← BitVec.toNat_inj, BitVec.toNat_ofNat]
  omega

/-! ## The statements -/

/-- Settles O16: an even word decodes to NOP, and NOP in either form keeps the state. -/
theorem nopChangesNothing : Obligations.NopChangesNothing := by
  intro s
  refine ⟨fun ignored => exec_of_nop (i := .nop ignored) rfl s, fun w hclear => exec_of_nop (instrCommand_wrCtrl ?_) s⟩
  exact decodeCommand_of_even ((bit_zero_eq_false_iff_even w).mp hclear)

/-- Settles O17: `finish` of a rejection is the same in every form; the tested bits give the word's value, by which O8 decodes
it. -/
theorem badCommandIsRecorded : Obligations.BadCommandIsRecorded := by
  intro s
  rw [← finish_reservedOp, ← finish_reservedBits]
  refine ⟨fun op => exec_of_badcmd (i := .badcmdOp op) rfl s,
    fun rsvd op => exec_of_badcmd (i := .badcmdBits rsvd op) rfl s,
    fun w hstart => ⟨fun hrsvd => ?_, fun hrsvd hop => ?_⟩⟩
  · have hge : 8 ≤ w.toNat := Nat.not_lt.mp fun hlt => hrsvd ((reservedBits_eq_zero_iff_lt w).mpr hlt)
    have hodd := (bit_zero_eq_true_iff_odd w).mp hstart
    exact exec_of_badcmd (instrCommand_wrCtrl (decodeCommand_of_odd_of_ge hodd hge)) s
  · obtain ⟨-, -, -, -, hdecode⟩ := everyControlWordDecodes w
    exact exec_of_badcmd (instrCommand_wrCtrl (hdecode (eq_five_or_seven hstart hrsvd hop))) s

/-- Settles O18: WR_CTRL and the table row of its word are instructions of one command. -/
theorem controlWritePerformsItsCommand : Obligations.ControlWritePerformsItsCommand := by
  intro w s
  exact ⟨carries_write_slot .ctrl w, exec_congr_command rfl (instrCommand_decodeCtrl w) s,
    fun h => exec_of_nop (instrCommand_wrCtrl h) s, fun _ h => exec_of_badcmd (instrCommand_wrCtrl h) s,
    fun h => exec_congr_command (instrCommand_wrCtrl h) rfl s, fun h => exec_congr_command (instrCommand_wrCtrl h) rfl s⟩

end Sys2Proof.Machine
end

section
/-! PROOFS. A sequence of accesses that writes a buffer, and a command that ends in success with its output written
(20_memory.md R54, R56, 60_exceptions.md R224). ENCODE and DECODE both end so. -/

namespace Sys2Proof.Machine

open Sys2Proof.Safety

/-- A sequence of accesses writes these bytes from an address on, each once and in any order, and no other byte. -/
structure WritesBuffer (es : List EngineAccess) (a : Nat) (bs : List Byte) : Prop where
  addresses : (writtenAddresses es).Perm (List.range' a bs.length)
  content   : ∀ i (h : i < bs.length), EngineAccess.write (a + i) bs[i] ∈ es

theorem WritesBuffer.mem_addresses {es : List EngineAccess} {a : Nat} {bs : List Byte} (h : WritesBuffer es a bs)
    {b : Nat} : b ∈ writtenAddresses es ↔ within ⟨a, bs.length⟩ b := by
  rw [h.addresses.mem_iff, List.mem_range'_1]
  rfl

/-- No address is written twice, so every byte of the buffer is there at the end. -/
theorem WritesBuffer.holdsBytes {es : List EngineAccess} {a : Nat} {bs : List Byte} (h : WritesBuffer es a bs)
    (m : Memory) : HoldsBytes (applyWrites m es) a bs := by
  intro i hi
  have hnodup : (writtenAddresses es).Nodup := h.addresses.nodup_iff.mpr List.nodup_range'
  exact read_applyWrites_of_mem m es (a + i) bs[i] hnodup (h.content i hi)

theorem WritesBuffer.sameOutside {es : List EngineAccess} {a : Nat} {bs : List Byte} (h : WritesBuffer es a bs)
    (m : Memory) : SameOutside ⟨a, bs.length⟩ m (applyWrites m es) :=
  fun b hb => read_applyWrites_outside m es b (mt h.mem_addresses.mp hb)

/-- The bytes that a memory holds from an address on are what reading the buffer there gives (R51). -/
theorem readBytes_eq_of_holdsBytes {m : Memory} {a : Nat} {bs : List Byte} (h : HoldsBytes m a bs) :
    Memory.readBytes m a bs.length = bs := by
  refine List.ext_getElem (Memory.readBytes_length m a bs.length) fun i hi hi' => ?_
  rw [Memory.readBytes_get, h i hi']

/-- What a state is after a command that wrote these bytes at an address and succeeded: `HoldsBytes` and `SameOutside` fix every
byte of memory, RESULT is the number of bytes written, and nothing else changes (R33, R225). -/
structure Wrote (a : Nat) (bs : List Byte) (s t : State) : Prop where
  state   : t = { s with mem := t.mem, regs := endsWith s.regs 0x00000100#32 (BitVec.ofNat 32 bs.length) }
  holds   : HoldsBytes t.mem a bs
  outside : SameOutside ⟨a, bs.length⟩ s.mem t.mem

theorem Wrote.regs_eq {a : Nat} {bs : List Byte} {s t : State} (h : Wrote a bs s t) :
    t.regs = endsWith s.regs 0x00000100#32 (BitVec.ofNat 32 bs.length) := by
  rw [h.state]

theorem Wrote.status_eq {a : Nat} {bs : List Byte} {s t : State} (h : Wrote a bs s t) :
    t.regs.status = 0x00000100#32 := by
  rw [h.regs_eq, endsWith]

theorem Wrote.result_toNat {a : Nat} {bs : List Byte} {s t : State} (h : Wrote a bs s t) (hlt : bs.length < 2 ^ 32) :
    t.regs.result.toNat = bs.length := by
  rw [h.regs_eq, endsWith, BitVec.toNat_ofNat, Nat.mod_eq_of_lt hlt]

/-- A defined command on memory that the platform answers, whose run stays in its regions and writes a buffer, succeeds with
that buffer written. -/
theorem runCommand_wrote {rr wr : Region} {run : CommandRun} {bs : List Byte} {s : State} (hdef : RegionsDefined rr wr s)
    (hbus : BusFine rr wr s) (hreads : ∀ a ∈ readAddresses run.trace, within rr a)
    (hwrites : WritesBuffer run.trace wr.base bs) (hsize : bs.length ≤ wr.size)
    (hending : run.ending = .success bs.length) :
    ∃ t, runCommand rr wr run s = .next t ∧ Wrote wr.base bs s t := by
  obtain ⟨hread, hwrite⟩ := hbus
  have hwithin : ∀ a ∈ writtenAddresses run.trace, within wr a := fun a ha =>
    have ⟨hlo, hhi⟩ := hwrites.mem_addresses.mp ha
    ⟨hlo, Nat.lt_of_lt_of_le hhi (Nat.add_le_add_left hsize _)⟩
  have hbusOk : busErrorKind s run.trace = none :=
    busErrorKind_eq_none.mpr (fails_of_addresses (fun a ha => hread a (hreads a ha))
      fun a ha => hwrite a (hwithin a ha))
  rw [runCommand_of_defined run hdef, hbusOk, hending]
  refine ⟨_, rfl, ?_, hwrites.holdsBytes s.mem, hwrites.sameOutside s.mem⟩
  simp only [finish, status_success, endsWith]

end Sys2Proof.Machine
end

section
/-! PROOFS. The closed form of the code on whole buffers (41_encode.md R147 to R150). -/

namespace Sys2Proof.Safety

/-- A number divides a sum no less often than its parts. -/
theorem sum_map_div_le_sum_div (ls : List Nat) (k : Nat) : (ls.map fun l => l / k).sum ≤ ls.sum / k := by
  induction ls with
  | nil => simp
  | cons l ls ih =>
    calc ((l :: ls).map fun l => l / k).sum = l / k + (ls.map fun l => l / k).sum := by simp
      _ ≤ l / k + ls.sum / k := Nat.add_le_add_left ih _
      _ ≤ (l + ls.sum) / k := Nat.div_add_div_le_add_div
      _ = (l :: ls).sum / k := by simp

/-- The segments hold the non-zero bytes of the buffer. -/
theorem segments_length_sum_le (x : List Byte) : ((segments x).map List.length).sum ≤ x.length := by
  induction x with
  | nil => simp [segments]
  | cons b bs ih =>
    by_cases hb : b = 0#8
    · rw [hb, segments_zero]
      simp only [List.map_cons, List.sum_cons, List.length_nil, List.length_cons]
      omega
    · obtain ⟨s, ss, hs⟩ := List.exists_cons_of_ne_nil (segments_ne_nil bs)
      have hcons : segments (b :: bs) = (b :: s) :: ss :=
        segments_append (l := [b]) (by simpa using Ne.symm hb) bs s ss hs
      rw [hs] at ih
      rw [hcons]
      simp only [List.map_cons, List.sum_cons, List.length_cons] at ih ⊢
      omega

/-- Full blocks are no more than the 254-byte runs that fit into the buffer (R147). -/
theorem fullBlocks_le_length_div (x : List Byte) : ((segments x).map fun s => s.length / 254).sum ≤ x.length / 254 := by
  have h := sum_map_div_le_sum_div ((segments x).map List.length) 254
  rw [List.map_map] at h
  exact h.trans (Nat.div_le_div_right (segments_length_sum_le x))

/-- Zeros alone are empty blocks, one more than there are zeros (R149). -/
theorem segmentForm_replicate_zero (n : Nat) : segmentForm (List.replicate n 0x00#8) = List.replicate (n + 1) 0x01#8 := by
  induction n with
  | zero => rfl
  | succ n ih =>
    have hstep := segmentForm_zero (l := []) (by simp) (by simp) (List.replicate n 0x00#8)
    rw [List.replicate_succ, List.replicate_succ, ← ih]
    exact hstep

/-- A zero-free buffer is one segment (R150). -/
theorem segmentForm_of_zero_free {x : List Byte} (h : 0#8 ∉ x) : segmentForm x = encSeg x := by
  simp [segmentForm, segments_of_zero_free h]

/-- A full block that ends the input has an empty one after it (R150). -/
theorem segmentForm_of_length_254 {x : List Byte} (h : 0#8 ∉ x) (hx : x.length = 254) :
    segmentForm x = 0xFF#8 :: x ++ [0x01#8] := by
  have hfull := segmentForm_full h hx []
  rw [List.append_nil] at hfull
  exact hfull

end Sys2Proof.Safety
end

section
/-! PROOFS. What ENCODE does on valid arguments, defined regions and a platform that answers (41_encode.md R140 to R152), and
O27 to O32. -/

namespace Sys2Proof.Machine

open Sys2Proof.Safety

/-! ## The run of ENCODE against the segment form -/

theorem segmentForm_length (xs : List Byte) : (segmentForm xs).length = segmentLength xs :=
  (encode_loop_start 0 0 xs).length

theorem zero_notMem_segmentForm (xs : List Byte) : 0#8 ∉ segmentForm xs :=
  (encode_loop_start 0 0 xs).noZero

theorem encodedLength_eq_segmentForm_length (xs : List Byte) : encodedLength xs = (segmentForm xs).length := by
  rw [encodedLength_eq, segmentForm_length]

theorem readAddresses_encodeRun (src dst : Nat) (xs : List Byte) :
    readAddresses (encodeRun src dst xs).trace = List.range' src xs.length :=
  (encode_loop_start src dst xs).reads

theorem encodeRun_writesBuffer (src dst : Nat) (xs : List Byte) :
    WritesBuffer (encodeRun src dst xs).trace dst (segmentForm xs) := by
  have hloop := encode_loop_start src dst xs
  refine ⟨?_, fun i hi => ?_⟩
  · obtain ⟨n, hn⟩ := Nat.exists_eq_add_of_le hloop.pending
    have hwrites := hloop.writes
    simp only [List.nil_append, List.length_nil, Nat.add_zero] at hn hwrites
    rw [hn, Nat.add_comm 1 n, List.range'_succ]
    rw [hn, Nat.add_sub_cancel_left] at hwrites
    exact hwrites
  · exact hloop.content i hi (Nat.eq_zero_or_pos i)

/-- Settles O32: both address lists are runs of consecutive addresses. -/
theorem encodeAccessesEachByteOnce : Obligations.EncodeAccessesEachByteOnce := by
  intro src dst xs
  rw [← List.range'_eq_map_range, ← List.range'_eq_map_range, encodedLength_eq_segmentForm_length]
  exact ⟨readAddresses_encodeRun src dst xs, (encodeRun_writesBuffer src dst xs).addresses⟩

/-! ## The outcome of ENCODE -/

section
variable {s : State} (hargs : ArgsValid s) (hdef : RegionsDefined (readArea s) (encodeArea s) s)
  (hbus : BusFine (readArea s) (encodeArea s) s)

include hargs hdef in
/-- DST is not zero and the output does not wrap, so its length fits RESULT (log 17). -/
theorem segmentForm_source_length_lt : (segmentForm (source s)).length < 2 ^ 32 := by
  have hfits : s.regs.dst.toNat + segmentLength (source s) ≤ 2 ^ 32 := hdef.writeFits
  have hdst : s.regs.dst.toNat ≠ 0 := fun h => hargs.dstSet (BitVec.eq_of_toNat_eq h)
  rw [segmentForm_length]
  omega

include hargs hdef hbus

/-- ENCODE succeeds with the segment form of its source written at DST (R148). -/
theorem exec_encode_wrote :
    ∃ t, exec .encode s = .next t ∧ Wrote s.regs.dst.toNat (segmentForm (source s)) s t := by
  rw [exec_of_encode rfl, encodeCommandEffect_valid hargs]
  refine runCommand_wrote hdef hbus (fun a ha => ?_) (encodeRun_writesBuffer _ _ _)
    (segmentForm_length (source s)).le ?_
  · rw [readAddresses_encodeRun, List.mem_range'_1, source_length] at ha
    exact ha
  · exact congrArg CommandEnding.success (encodedLength_eq_segmentForm_length (source s))

/-- What a host sees of it: STATUS, RESULT and the bytes at DST. -/
theorem exec_encode_outcome :
    ∃ t, exec .encode s = .next t ∧ t.regs.status = 0x00000100#32 ∧
      t.regs.result.toNat = (segmentForm (source s)).length ∧
      HoldsBytes t.mem s.regs.dst.toNat (segmentForm (source s)) := by
  obtain ⟨t, hexec, hwrote⟩ := exec_encode_wrote hargs hdef hbus
  exact ⟨t, hexec, hwrote.status_eq, hwrote.result_toNat (segmentForm_source_length_lt hargs hdef), hwrote.holds⟩

end

/-! ## The statements -/

/-- Settles O27: the state ENCODE leaves, its length bounded because DST is not zero. -/
theorem encodeWritesTheSegmentForm : Obligations.EncodeWritesTheSegmentForm := by
  intro s hargs hdef hbus
  obtain ⟨t, hexec, hwrote⟩ := exec_encode_wrote hargs hdef hbus
  exact ⟨t.mem, hexec.trans (congrArg Host.Outcome.next hwrote.state), segmentForm_source_length_lt hargs hdef,
    hwrote.holds, hwrote.outside⟩

/-- Settles O28: the length of the segment form, with the bound on the number of full blocks. -/
theorem encodeResultIsTheExactLength : Obligations.EncodeResultIsTheExactLength := by
  intro s hargs hdef hbus n
  obtain ⟨t, hexec, hstatus, hresult, -⟩ := exec_encode_outcome hargs hdef hbus
  have hlength : t.regs.result.toNat = n + 1 + ((segments (source s)).map fun x => x.length / 254).sum :=
    hresult.trans (segmentForm_length (source s))
  have hfull : ((segments (source s)).map fun x => x.length / 254).sum ≤ n / 254 := fullBlocks_le_length_div (source s)
  exact ⟨t, hexec, hstatus, hlength, by omega, by omega, by omega⟩

/-- Settles O29: every address of the output reads a byte of the segment form, which holds no zero. -/
theorem encodeOutputHoldsNoZero : Obligations.EncodeOutputHoldsNoZero := by
  intro s hargs hdef hbus
  obtain ⟨t, hexec, hstatus, hresult, hholds⟩ := exec_encode_outcome hargs hdef hbus
  refine ⟨t, hexec, hstatus, fun a hlo hhi => ?_⟩
  obtain ⟨i, rfl⟩ := Nat.exists_eq_add_of_le hlo
  have hi : i < (segmentForm (source s)).length := by omega
  rw [hholds i hi]
  exact ne_of_mem_of_not_mem (List.getElem_mem hi) (zero_notMem_segmentForm (source s))

/-- Settles O30: the segment form of zeros is ones, so the region of the statement is the whole write region. -/
theorem encodeOfZerosIsOnes : Obligations.EncodeOfZerosIsOnes := by
  intro s hargs hzeros hdef hbus
  have hform : segmentForm (source s) = List.replicate ((source s).length + 1) 0x01#8 := by
    rw [← segmentForm_replicate_zero, ← List.eq_replicate_iff.mpr ⟨rfl, hzeros⟩]
  have hlength : (segmentForm (source s)).length = (source s).length + 1 := by
    rw [hform, List.length_replicate]
  have harea : (⟨s.regs.dst.toNat, (source s).length + 1⟩ : Region) = encodeArea s := by
    rw [encodeArea, ← segmentForm_length, hlength]
  rw [harea] at hdef hbus
  obtain ⟨t, hexec, hstatus, hresult, hholds⟩ := exec_encode_outcome hargs hdef hbus
  exact ⟨t, hexec, hstatus, hresult.trans hlength, hform ▸ hholds⟩

/-- Settles O31: the segment form of one segment, by its length. -/
theorem encodeOfZeroFreeInput : Obligations.EncodeOfZeroFreeInput := by
  intro s hargs hfree hdef hbus x
  obtain ⟨t, hexec, hstatus, hresult, hholds⟩ := exec_encode_outcome hargs hdef hbus
  refine ⟨t, hexec, hstatus, fun hx => ?_, fun hx => ?_, fun _ => ?_⟩
  · rw [segmentForm_short hfree (Nat.lt_succ_of_le hx)] at hresult hholds
    exact ⟨hresult, hholds⟩
  · have hform := segmentForm_of_length_254 hfree hx
    rw [hform] at hresult hholds
    refine ⟨hresult.trans ?_, hholds⟩
    show (0xFF#8 :: x ++ [0x01#8]).length = 256
    simp [hx]
  · rw [segmentForm_of_zero_free hfree] at hholds
    exact hholds

end Sys2Proof.Machine
end

section
/-! PROOFS. DECODE on blocks that tile its source (42_decode.md R188), the blocks of an encoded buffer, and O40. -/

namespace Sys2Proof.Safety

/-! ## A block before others -/

theorem Tiles.ne_nil {bs : List CodeBlock} (h : Tiles bs) : bs ≠ [] := by
  rintro rfl
  exact h

theorem blockBytes_cons (b : CodeBlock) (bs : List CodeBlock) :
    blockBytes (b :: bs) = b.code :: (b.literals ++ blockBytes bs) := by
  simp [blockBytes]

/-- A whole block before blocks that tile a buffer. -/
theorem Tiles.cons {b : CodeBlock} {bs : List CodeBlock} (h : Tiles bs) (hcode : b.code ≠ 0#8) (hfree : 0#8 ∉ b.literals)
    (hlen : b.literals.length = b.code.toNat - 1) : Tiles (b :: bs) := by
  cases bs with
  | nil => exact absurd rfl h.ne_nil
  | cons c rest => exact ⟨hcode, hfree, hlen, h⟩

theorem decodedBlocks_cons {b : CodeBlock} {bs : List CodeBlock} (h : bs ≠ []) :
    decodedBlocks (b :: bs) = b.literals ++ (if b.code = 0xFF#8 then [] else [0x00#8]) ++ decodedBlocks bs := by
  cases bs with
  | nil => exact absurd rfl h
  | cons c rest => rfl

/-! ## The blocks of an encoded buffer -/

/-- The overhead byte of a block that is not full says how many literals follow (R142, R144). -/
theorem shortCode_toNat {l : List Byte} (hl : l.length < 254) :
    (BitVec.ofNat 8 (l.length + 1)).toNat = l.length + 1 := by
  rw [BitVec.toNat_ofNat]
  omega

theorem shortCode_ne_zero {l : List Byte} (hl : l.length < 254) : BitVec.ofNat 8 (l.length + 1) ≠ 0#8 := by
  intro h
  have hnat : l.length + 1 = 0 := (shortCode_toNat hl).symm.trans (congrArg BitVec.toNat h)
  omega

theorem shortCode_ne_full {l : List Byte} (hl : l.length < 254) : BitVec.ofNat 8 (l.length + 1) ≠ 0xFF#8 := by
  intro h
  have hnat : l.length + 1 = 255 := (shortCode_toNat hl).symm.trans (congrArg BitVec.toNat h)
  omega

/-- How a raw buffer begins: with literals that end it, with literals that a zero closes, or with a full block's literals. -/
theorem raw_cases (x : List Byte) :
    (0#8 ∉ x ∧ x.length < 254) ∨
    (∃ l y, x = l ++ 0#8 :: y ∧ 0#8 ∉ l ∧ l.length < 254) ∨
    (∃ l y, x = l ++ y ∧ 0#8 ∉ l ∧ l.length = 254) := by
  by_cases hzero : 0#8 ∈ x.take 254
  · obtain ⟨l, y, hsplit, hfree⟩ := List.eq_append_cons_of_mem hzero
    have hlen := congrArg List.length hsplit
    simp only [List.length_take, List.length_append, List.length_cons] at hlen
    refine .inr (.inl ⟨l, y ++ x.drop 254, ?_, hfree, by omega⟩)
    conv_lhs => rw [← List.take_append_drop 254 x, hsplit]
    simp
  · by_cases hlen : x.length < 254
    · rw [List.take_of_length_le hlen.le] at hzero
      exact .inl ⟨hzero, hlen⟩
    · exact .inr (.inr ⟨x.take 254, x.drop 254, (List.take_append_drop 254 x).symm, hzero, by simp; omega⟩)

/-- The segment form of a buffer is tiled by blocks that decode to the buffer (R155, R196). -/
theorem exists_tiles_segmentForm (x : List Byte) :
    ∃ bs, Tiles bs ∧ blockBytes bs = segmentForm x ∧ decodedBlocks bs = x := by
  induction hn : x.length using Nat.strongRecOn generalizing x with
  | _ n ih =>
    subst hn
    obtain ⟨hfree, hlen⟩ | ⟨l, y, rfl, hfree, hlen⟩ | ⟨l, y, rfl, hfree, hlen⟩ := raw_cases x
    · refine ⟨[⟨BitVec.ofNat 8 (x.length + 1), x⟩], ⟨shortCode_ne_zero hlen, hfree, ?_⟩, ?_, rfl⟩
      · rw [shortCode_toNat hlen, Nat.add_sub_cancel]
      · rw [segmentForm_short hfree hlen]
        simp [blockBytes]
    · obtain ⟨bs, htiles, hbytes, hdecoded⟩ := ih y.length (by simp; omega) y rfl
      refine ⟨⟨BitVec.ofNat 8 (l.length + 1), l⟩ :: bs, htiles.cons (shortCode_ne_zero hlen) hfree ?_, ?_, ?_⟩
      · rw [shortCode_toNat hlen, Nat.add_sub_cancel]
      · rw [blockBytes_cons, hbytes, segmentForm_zero hfree hlen]
      · rw [decodedBlocks_cons htiles.ne_nil, hdecoded, if_neg (shortCode_ne_full hlen)]
        simp
    · obtain ⟨bs, htiles, hbytes, hdecoded⟩ := ih y.length (by simp; omega) y rfl
      refine ⟨⟨0xFF#8, l⟩ :: bs, htiles.cons (show 0xFF#8 ≠ 0#8 by decide) hfree hlen, ?_, ?_⟩
      · rw [blockBytes_cons, hbytes, segmentForm_full hfree hlen]
      · rw [decodedBlocks_cons htiles.ne_nil, hdecoded, if_pos rfl]
        simp

end Sys2Proof.Safety

namespace Sys2Proof.Machine

open Sys2Proof.Safety

/-! ## DECODE on blocks that tile its source -/

theorem readAddresses_decodeRun (src dst : Nat) {ys : List Byte} (hne : ys ≠ []) (hfree : 0#8 ∉ ys) :
    readAddresses (decodeRun src dst ys).trace = List.range' src ys.length := by
  have hreads := (decodeLoop_accesses src dst ys.length ys ys.length 0 0 rfl hne le_rfl).reads
  rw [readSpan_zero_free hfree] at hreads
  exact hreads

theorem decodeRun_ending {bs : List CodeBlock} (h : Tiles bs) (src dst : Nat) :
    (decodeRun src dst (blockBytes bs)).ending = .success (decodedBlocks bs).length := by
  have htiles := decodeLoop_tiles src dst bs (blockBytes bs).length 0 0 h le_rfl
  rw [htiles.length]
  exact htiles.ending.trans (by rw [Nat.zero_add])

/-- DECODE writes the decoded blocks, fewer bytes than it reads (R188, R192). -/
theorem decodeRun_writesBuffer {bs : List CodeBlock} (h : Tiles bs) (src dst : Nat) :
    WritesBuffer (decodeRun src dst (blockBytes bs)).trace dst (decodedBlocks bs) ∧
      (decodedBlocks bs).length < (blockBytes bs).length := by
  have htiles := decodeLoop_tiles src dst bs (blockBytes bs).length 0 0 h le_rfl
  obtain ⟨w, hlt, hwrites, hsuccess, -⟩ :=
    (decodeLoop_accesses src dst (blockBytes bs).length (blockBytes bs) (blockBytes bs).length 0 0 rfl htiles.nonempty
      le_rfl).writes
  obtain ⟨hw, -⟩ := hsuccess _ (decodeRun_ending h src dst)
  rw [Nat.zero_add] at hw
  rw [← hw] at hlt hwrites
  exact ⟨⟨List.Perm.of_eq hwrites, htiles.content⟩, hlt⟩

/-- DECODE of a source that blocks tile succeeds with the decoded blocks written at DST (R188). -/
theorem exec_decode_wrote {s : State} {bs : List CodeBlock} (hargs : ArgsValid s)
    (hdef : RegionsDefined (readArea s) (decodeArea s) s) (hbus : BusFine (readArea s) (decodeArea s) s)
    (htiles : Tiles bs) (hsource : source s = blockBytes bs) :
    ∃ t, exec .decode s = .next t ∧ Wrote s.regs.dst.toNat (decodedBlocks bs) s t := by
  obtain ⟨hwrites, hlt⟩ := decodeRun_writesBuffer htiles s.regs.src.toNat s.regs.dst.toNat
  have hsize : (blockBytes bs).length = (readArea s).size := by rw [← hsource, source_length]
  have hfree := (decodeLoop_tiles 0 0 bs (blockBytes bs).length 0 0 htiles le_rfl).zeroFree
  rw [exec_of_decode rfl, decodeCommandEffect_valid hargs, hsource]
  refine runCommand_wrote hdef hbus (fun a ha => ?_) hwrites (hlt.le.trans_eq hsize) (decodeRun_ending htiles _ _)
  rw [readAddresses_decodeRun _ _ (hsource ▸ source_ne_nil hargs) hfree, List.mem_range'_1, hsize] at ha
  exact ha

/-! ## Round trip -/

/-- A positive LEN counts what its pattern says. -/
theorem toNat_toInt_of_pos {w : Word} (h : 0 < w.toInt) : w.toInt.toNat = w.toNat := by
  rw [BitVec.toInt_eq_toNat_cond] at h ⊢
  split at h <;> omega

/-- With valid arguments the number of source bytes is LEN. -/
theorem ofNat_source_length {s : State} (h : ArgsValid s) : BitVec.ofNat 32 (source s).length = s.regs.len := by
  have hcount : (source s).length = s.regs.len.toNat := (source_length s).trans (toNat_toInt_of_pos h.lenPos)
  rw [hcount, BitVec.ofNat_toNat, BitVec.setWidth_eq]

/-- The source of a command is the buffer that memory holds at SRC, when LEN is its length. -/
theorem source_eq_of_holdsBytes {s : State} {bs : List Byte} (h : HoldsBytes s.mem s.regs.src.toNat bs)
    (hpos : 0 < s.regs.len.toInt) (hlen : s.regs.len.toNat = bs.length) : source s = bs := by
  have hcount : s.regs.len.toInt.toNat = bs.length := (toNat_toInt_of_pos hpos).trans hlen
  unfold source readArea
  rw [hcount]
  exact readBytes_eq_of_holdsBytes h

/-- Settles O40: the second command's source is the segment form the first one wrote, which blocks tile that decode to the
first one's source. -/
theorem decodeUndoesEncode : Obligations.DecodeUndoesEncode := by
  intro s d hargs hdef hbus
  obtain ⟨t, hexec, hstatus, hresult, hholds⟩ := exec_encode_outcome hargs hdef hbus
  refine ⟨t, hexec, hstatus, fun hargs' hdef' hbus' => ?_⟩
  obtain ⟨bs, htiles, hbytes, hdecoded⟩ := exists_tiles_segmentForm (source s)
  have hsource : source (withArgs t s.regs.dst d t.regs.result) = blockBytes bs := by
    rw [hbytes]
    exact source_eq_of_holdsBytes hholds hargs'.lenPos hresult
  obtain ⟨v, hexec', hwrote⟩ := exec_decode_wrote hargs' hdef' hbus' htiles hsource
  rw [hdecoded] at hwrote
  refine ⟨v, hexec', hwrote.status_eq, ?_, hwrote.holds, hwrote.outside⟩
  rw [hwrote.regs_eq]
  exact ofNat_source_length hargs

end Sys2Proof.Machine
end

section
/-! PROOFS. What DECODE does on every source with valid arguments, defined regions and a platform that answers (42_decode.md
R187 to R193), and O33 to O37 and O39. -/

namespace Sys2Proof.Machine

open Sys2Proof.Safety

/-! ## The accesses of a run of DECODE (R193, R197) -/

theorem decodeRun_accesses (src dst : Nat) {ys : List Byte} (hne : ys ≠ []) :
    DecodeAccesses src dst 0 0 ys (decodeRun src dst ys) :=
  decodeLoop_accesses src dst ys.length ys ys.length 0 0 rfl hne le_rfl

theorem readSpan_le_length (ys : List Byte) : readSpan ys ≤ ys.length :=
  Nat.min_le_right _ _

/-- A run of DECODE reads its source only. -/
theorem within_of_mem_readAddresses_decodeRun {src dst a : Nat} {ys : List Byte} (hne : ys ≠ [])
    (ha : a ∈ readAddresses (decodeRun src dst ys).trace) : within ⟨src, ys.length⟩ a := by
  rw [(decodeRun_accesses src dst hne).reads, List.mem_range'_1] at ha
  exact ⟨ha.1, Nat.lt_of_lt_of_le ha.2 (Nat.add_le_add_left (readSpan_le_length ys) src)⟩

/-- A run of DECODE writes to its worst-case region only (R57, R192). -/
theorem within_of_mem_writtenAddresses_decodeRun {src dst a : Nat} {ys : List Byte} (hne : ys ≠ [])
    (ha : a ∈ writtenAddresses (decodeRun src dst ys).trace) : within ⟨dst, ys.length⟩ a := by
  obtain ⟨w, hlt, hwrites, -⟩ := (decodeRun_accesses src dst hne).writes
  rw [hwrites, List.mem_range'_1] at ha
  exact ⟨ha.1, ha.2.trans (Nat.add_lt_add_left hlt dst)⟩

/-- A run over a source that holds a zero is malformed (R187). -/
theorem exists_decodeRun_ending_malformed (src dst : Nat) {ys : List Byte} (hzero : 0#8 ∈ ys) :
    ∃ r, (decodeRun src dst ys).ending = .malformed r := by
  obtain ⟨_, _, _, hsuccess, _⟩ := (decodeRun_accesses src dst (List.ne_nil_of_mem hzero)).writes
  cases hending : (decodeRun src dst ys).ending with
  | success n => exact absurd hzero (hsuccess n hending).2
  | malformed r => exact ⟨r, rfl⟩

/-- Its reason is the place of the first zero (R187). -/
theorem decodeRun_ending_reason (src dst : Nat) {p : List Byte} (q : List Byte) (hfree : 0#8 ∉ p) :
    (BlockBoundary p → (decodeRun src dst (p ++ 0#8 :: q)).ending = .malformed .zeroOverhead) ∧
    (¬ BlockBoundary p → (decodeRun src dst (p ++ 0#8 :: q)).ending = .malformed .zeroLiteral) :=
  decodeLoop_reason src dst p.length p q (p ++ 0#8 :: q).length 0 0 rfl hfree le_rfl

/-- A run over one overhead byte reads it and stops (R190). -/
theorem decodeRun_singleton (src dst : Nat) {c : Byte} (hc : c ≠ 0#8) :
    decodeRun src dst [c] = ⟨[.read src], .success 0⟩ :=
  decodeLoop_last_block src dst 0 0 0 hc (by simp) (Nat.zero_le _)

/-! ## The outcome of DECODE -/

/-- Unspecified values in a region leave every byte outside it. -/
theorem havoc_sameOutside (r : Region) (s : State) : SameOutside r s.mem (havoc r s).mem := by
  intro a ha
  rw [havoc_mem]
  refine Memory.read_fillFree_outside _ _ _ _ _ ?_
  unfold within at ha
  omega

/-- DECODE's two regions have the size of its source (R57). -/
theorem readArea_eq (s : State) : readArea s = ⟨s.regs.src.toNat, (source s).length⟩ := by
  rw [source_length]
  rfl

theorem decodeArea_eq (s : State) : decodeArea s = ⟨s.regs.dst.toNat, (source s).length⟩ := by
  rw [source_length]
  rfl

/-- A source has fewer bytes than there are addresses. -/
theorem source_length_lt {s : State} (h : ArgsValid s) : (source s).length < 2 ^ 32 := by
  rw [source_length, readArea, toNat_toInt_of_pos h.lenPos]
  exact s.regs.len.isLt

section
variable {s : State} (hargs : ArgsValid s) (hdef : RegionsDefined (readArea s) (decodeArea s) s)
  (hbus : BusFine (readArea s) (decodeArea s) s)

include hargs hbus in
/-- No access of the run is refused. -/
theorem busErrorKind_decodeRun :
    busErrorKind s (decodeRun s.regs.src.toNat s.regs.dst.toNat (source s)).trace = none := by
  obtain ⟨hread, hwrite⟩ := hbus
  have hne := source_ne_nil hargs
  rw [readArea_eq] at hread
  rw [decodeArea_eq] at hwrite
  exact busErrorKind_eq_none.mpr (fails_of_addresses
    (fun a ha => hread a (within_of_mem_readAddresses_decodeRun hne ha))
    fun a ha => hwrite a (within_of_mem_writtenAddresses_decodeRun hne ha))

include hargs hdef hbus

/-- A run that ends in success is written to memory, and RESULT is its count (R224). -/
theorem exec_decode_of_success {n : Nat}
    (hending : (decodeRun s.regs.src.toNat s.regs.dst.toNat (source s)).ending = .success n) :
    exec .decode s = .next { s with
      mem := applyWrites s.mem (decodeRun s.regs.src.toNat s.regs.dst.toNat (source s)).trace
      regs := endsWith s.regs 0x00000100#32 (BitVec.ofNat 32 n) } := by
  rw [exec_of_decode rfl, decodeCommandEffect_valid hargs, runCommand_of_defined _ hdef,
    busErrorKind_decodeRun hargs hbus, hending]
  simp only [finish, status_success, endsWith]

/-- A run that meets a zero leaves the write region unspecified (R191, R224). -/
theorem exec_decode_of_malformed {r : MalformedReason}
    (hending : (decodeRun s.regs.src.toNat s.regs.dst.toNat (source s)).ending = .malformed r) :
    exec .decode s = .next (finish (.malformedStream r) 0#32 (havoc (decodeArea s) s)) := by
  rw [exec_of_decode rfl, decodeCommandEffect_valid hargs, runCommand_of_defined _ hdef,
    busErrorKind_decodeRun hargs hbus, hending]

/-- DECODE of a zero-free source succeeds with the decoded blocks of a tiling written at DST (R188). -/
theorem exists_tiles_exec_decode_wrote (hfree : 0#8 ∉ source s) :
    ∃ bs t, Tiles bs ∧ blockBytes bs = source s ∧ exec .decode s = .next t ∧
      Wrote s.regs.dst.toNat (decodedBlocks bs) s t := by
  obtain ⟨bs, htiles, hbytes⟩ := tiles_of_zero_free _ (source s) rfl (source_ne_nil hargs) hfree
  obtain ⟨t, hexec, hwrote⟩ := exec_decode_wrote hargs hdef hbus htiles hbytes.symm
  exact ⟨bs, t, htiles, hbytes, hexec, hwrote⟩

end

/-- `decodedLength` counts the bytes of `decodedBlocks` (R188). -/
theorem decodedBlocks_length {bs : List CodeBlock} (h : Tiles bs) : (decodedBlocks bs).length = decodedLength bs :=
  (decodeLoop_tiles 0 0 bs (blockBytes bs).length 0 0 h le_rfl).length

/-! ## ENCODE that succeeds -/

/-- A command that succeeds had defined regions and a run that ended in success, whose count is RESULT. -/
theorem runCommand_of_status_success {rr wr : Region} {run : CommandRun} {s t : State}
    (h : runCommand rr wr run s = .next t) (hstatus : t.regs.status = 0x00000100#32) :
    RegionsDefined rr wr s ∧ ∃ n, run.ending = .success n ∧ t.regs.result = BitVec.ofNat 32 n := by
  obtain ⟨hdef, ⟨k, -, rfl⟩ | ⟨-, r, -, rfl⟩ | ⟨-, n, hending, rfl⟩⟩ := runCommand_eq_next h
  · cases status_eq_success.mp hstatus
  · cases status_eq_success.mp hstatus
  · exact ⟨hdef, n, hending, rfl⟩

/-- RESULT of an ENCODE that succeeds is the length of the segment form of a source that is not empty. -/
theorem exec_encode_of_status_success {s t : State} (h : exec .encode s = .next t)
    (hstatus : t.regs.status = 0x00000100#32) :
    ArgsValid s ∧ t.regs.result.toNat = segmentLength (source s) := by
  rw [exec_of_encode rfl] at h
  obtain hargs | ⟨r, hr⟩ := args_cases s
  · rw [encodeCommandEffect_valid hargs] at h
    obtain ⟨hdef, n, hending, hresult⟩ := runCommand_of_status_success h hstatus
    have hn : encodedLength (source s) = n := CommandEnding.success.inj hending
    have hlt := segmentForm_source_length_lt hargs hdef
    rw [segmentForm_length] at hlt
    rw [hresult, ← hn, encodedLength_eq, BitVec.toNat_ofNat, Nat.mod_eq_of_lt hlt]
    exact ⟨hargs, rfl⟩
  · rw [encodeCommandEffect_invalid hr] at h
    cases h
    cases status_eq_success.mp hstatus

/-! ## The statements -/

/-- Settles O33: blocks tile the source, and DECODE writes what they decode to, fewer bytes than it reads. -/
theorem decodeWritesTheDecodedBlocks : Obligations.DecodeWritesTheDecodedBlocks := by
  intro s hargs hdef hbus hfree
  obtain ⟨bs, t, htiles, hbytes, hexec, hwrote⟩ := exists_tiles_exec_decode_wrote hargs hdef hbus hfree
  have hlength := decodedBlocks_length htiles
  obtain ⟨-, hlt⟩ := decodeRun_writesBuffer htiles 0 0
  rw [hbytes, hlength] at hlt
  refine ⟨bs, t.mem, htiles, hbytes, ?_, hlength, Nat.le_sub_one_of_lt hlt, hwrote.holds, ?_⟩
  · rw [← hlength]
    exact hexec.trans (congrArg Host.Outcome.next hwrote.state)
  · rw [← hlength]
    exact hwrote.outside

/-- Settles O34: the run over one byte writes nothing; the segment form of a byte or more has two or more. -/
theorem oneByteInputDecodesToNothing : Obligations.OneByteInputDecodesToNothing := by
  refine ⟨fun s c hargs hdef hbus hsource hc => ?_, fun s t hexec hstatus => ?_⟩
  · have hrun := decodeRun_singleton s.regs.src.toNat s.regs.dst.toNat hc
    rw [← hsource] at hrun
    rw [exec_decode_of_success hargs hdef hbus (congrArg CommandRun.ending hrun), hrun]
    rfl
  · obtain ⟨hargs, hresult⟩ := exec_encode_of_status_success hexec hstatus
    have hpos := List.length_pos_of_ne_nil (source_ne_nil hargs)
    rw [hresult, segmentLength]
    omega

/-- Settles O35: the one clamped block tiles the source and decodes to its literals. -/
theorem truncatedBlockIsClamped : Obligations.TruncatedBlockIsClamped := by
  intro s c lits hargs hdef hbus hsource hc hfree hlen
  have htiles : Tiles [⟨c, lits⟩] := ⟨hc, hfree, hlen⟩
  have hbytes : source s = blockBytes [⟨c, lits⟩] := by simp [hsource, blockBytes]
  have hlt : lits.length < 2 ^ 32 := by
    have h := source_length_lt hargs
    rw [hsource, List.length_cons] at h
    omega
  obtain ⟨t, hexec, hwrote⟩ := exec_decode_wrote hargs hdef hbus htiles hbytes
  exact ⟨t, hexec, hwrote.status_eq, hwrote.result_toNat hlt, hwrote.holds, hwrote.outside⟩

/-- Settles O36: by whether the source holds a zero; the run's one reason is that of the first zero's place. -/
theorem decodeFailsExactlyOnAZero : Obligations.DecodeFailsExactlyOnAZero := by
  intro s hargs hdef hbus
  by_cases hzero : 0#8 ∈ source s
  · obtain ⟨r, hending⟩ := exists_decodeRun_ending_malformed s.regs.src.toNat s.regs.dst.toNat hzero
    refine ⟨_, exec_decode_of_malformed hargs hdef hbus hending, iff_of_true (status_fields _).1 hzero,
      fun p q hsource hfree => ?_⟩
    obtain ⟨hoverhead, hliteral⟩ := decodeRun_ending_reason s.regs.src.toNat s.regs.dst.toNat q hfree
    rw [← hsource, hending] at hoverhead hliteral
    refine ⟨fun hp => ?_, fun hp => ?_⟩
    · rw [finish_status, CommandEnding.malformed.inj (hoverhead hp), status_zeroOverhead]
    · rw [finish_status, CommandEnding.malformed.inj (hliteral hp), status_zeroLiteral]
  · obtain ⟨_, t, -, -, hexec, hwrote⟩ := exists_tiles_exec_decode_wrote hargs hdef hbus hzero
    refine ⟨t, hexec, iff_of_false ?_ hzero, fun p q hsource => absurd ?_ hzero⟩
    · rw [hwrote.status_eq]
      decide
    · simp [hsource]

/-- Settles O37: the unspecified bytes are DECODE's write region, which its source does not meet. -/
theorem malformedDecodeKeepsTheRest : Obligations.MalformedDecodeKeepsTheRest := by
  intro s hargs hdef hbus hzero
  obtain ⟨r, hending⟩ := exists_decodeRun_ending_malformed s.regs.src.toNat s.regs.dst.toNat hzero
  have hsame := havoc_sameOutside (decodeArea s) s
  refine ⟨_, exec_decode_of_malformed hargs hdef hbus hending, (status_fields _).1, rfl, hsame, ?_⟩
  exact source_congr rfl rfl fun a ha => hsame a fun hw => hdef.disjoint a ⟨ha, hw⟩

/-- Settles O39: both address lists are runs of consecutive addresses, and a run that succeeds has met no zero. -/
theorem decodeAccessesBytesInOrder : Obligations.DecodeAccessesBytesInOrder := by
  intro src dst ys hne
  obtain ⟨hreads, w, hlt, hwrites, hsuccess, -⟩ := decodeRun_accesses src dst hne
  rw [← List.range'_eq_map_range]
  refine ⟨hreads, w, hlt, hwrites.trans List.range'_eq_map_range, fun r hr => ?_⟩
  obtain ⟨hcount, hfree⟩ := hsuccess r hr
  exact ⟨hcount.trans (Nat.zero_add w), readSpan_zero_free hfree⟩

end Sys2Proof.Machine
end

section
/-! PROOFS. The argument check of ENCODE and DECODE cause by cause (60_exceptions.md R222, R223, R226), and O20. -/

namespace Sys2Proof.Machine

open Sys2Proof.Safety

/-! ## `CheckArgs` on the registers -/

/-- The check of the assembled operands (R88, R223) is one of the register words. -/
theorem checkArgs_operands (s : State) :
    checkArgs (operands s) =
      if s.regs.dst = 0#32 then some .dstUnset
      else if s.regs.src = 0#32 then some .srcUnset
      else if s.regs.src = s.regs.dst then some .srcIsDst
      else if s.regs.len.toInt ≤ 0 then some .lenNotPositive
      else none := by
  have hzero (w : Word) : w.toNat = 0 ↔ w = 0#32 := BitVec.toNat_inj (y := 0#32)
  exact if_congr (hzero s.regs.dst) rfl (if_congr (hzero s.regs.src) rfl (if_congr BitVec.toNat_inj rfl rfl))

/-! ## A command that fails the check -/

/-- ENCODE and DECODE leave the STATUS word of the cause and do nothing else (R226). -/
theorem exec_of_checkArgs_eq_some {i : Instr} {s : State} {r : ArgReason} {w : Word} (hi : i = .encode ∨ i = .decode)
    (hw : (Completion.invalidArguments r).status = w) (h : checkArgs (operands s) = some r) :
    exec i s = .next { s with regs := endsWith s.regs w 0#32 } := by
  subst hw
  obtain rfl | rfl := hi
  · exact (exec_of_encode rfl s).trans (encodeCommandEffect_invalid h)
  · exact (exec_of_decode rfl s).trans (decodeCommandEffect_invalid h)

/-! ## The statement -/

/-- Settles O20: each clause denies the causes tested before its own, so the check answers its own. SRC = DST denies that SRC
is unset because DST is set. -/
theorem argumentCausesAreReportedInOrder : Obligations.ArgumentCausesAreReportedInOrder := by
  intro s i hi
  refine ⟨fun hdst => exec_of_checkArgs_eq_some hi status_dstUnset ?_,
    fun hdst hsrc => exec_of_checkArgs_eq_some hi status_srcUnset ?_,
    fun hdst hsame => exec_of_checkArgs_eq_some hi status_srcIsDst ?_,
    fun hdst hsrc hdiff hlen => exec_of_checkArgs_eq_some hi status_lenNotPositive ?_, checkArgs_eq_none.mpr⟩
  · rw [checkArgs_operands, if_pos hdst]
  · rw [checkArgs_operands, if_neg hdst, if_pos hsrc]
  · have hsrc : s.regs.src ≠ 0#32 := hsame ▸ hdst
    rw [checkArgs_operands, if_neg hdst, if_neg hsrc, if_pos hsame]
  · rw [checkArgs_operands, if_neg hdst, if_neg hsrc, if_neg hdiff, if_pos hlen]

end Sys2Proof.Machine
end

section
/-! PROOFS. The words, the bytes and the bus access of an encoding against the decoder (30_encoding.md R80 to R92), and O9 to
O12. -/

namespace Sys2Proof

open Sys2Proof.Machine

/-! ## The fields of a CTRL word (R82) -/

section
variable (rsvd : BitVec 29) (op : BitVec 2) (start : BitVec 1)

theorem startBit_of_fields : (rsvd ++ (op ++ start) : Word).extractLsb' 0 1 = start := by
  rw [BitVec.extractLsb'_append_eq_of_add_le (by decide), BitVec.extractLsb'_append_eq_right]

theorem opField_of_fields : (rsvd ++ (op ++ start) : Word).extractLsb' 1 2 = op := by
  rw [BitVec.extractLsb'_append_eq_of_add_le (by decide), BitVec.extractLsb'_append_eq_left]

theorem reservedBits_of_fields : (rsvd ++ (op ++ start) : Word).extractLsb' 3 29 = rsvd :=
  BitVec.extractLsb'_append_eq_left

end

theorem ctrlWord_eq_fields (w : Word) : w = w.extractLsb' 3 29 ++ (w.extractLsb' 1 2 ++ w.extractLsb' 0 1) := by
  rw [BitVec.extractLsb'_append_extractLsb'_eq_extractLsb' (by decide),
    BitVec.extractLsb'_append_extractLsb'_eq_extractLsb' (by decide), BitVec.extractLsb'_eq_self]

theorem ctrlWord_eq_ignored_start (w : Word) : w = w.extractLsb' 1 31 ++ w.extractLsb' 0 1 := by
  rw [BitVec.extractLsb'_append_extractLsb'_eq_extractLsb' (by decide), BitVec.extractLsb'_eq_self]

/-- The rows of R83 cover every word: NOP with its ignored bits, BADCMD_BITS with its free fields, and four words written out. -/
theorem ctrlWord_cases (w : Word) :
    (∃ ignored : BitVec 31, w = ignored ++ 0#1) ∨
    (∃ (rsvd : BitVec 29) (op : BitVec 2), rsvd ≠ 0#29 ∧ w = rsvd ++ (op ++ 1#1)) ∨
    w = 0x00000001#32 ∨ w = 0x00000003#32 ∨ w = 0x00000005#32 ∨ w = 0x00000007#32 := by
  obtain hstart | hstart : w.extractLsb' 0 1 = 0#1 ∨ w.extractLsb' 0 1 = 1#1 := BitVec.eq_zero_or_eq_one _
  · exact .inl ⟨w.extractLsb' 1 31, hstart ▸ ctrlWord_eq_ignored_start w⟩
  · have hw := ctrlWord_eq_fields w
    rw [hstart] at hw
    by_cases hrsvd : w.extractLsb' 3 29 = 0#29
    · rw [hrsvd] at hw
      have hop : ∀ op : BitVec 2, op = 0#2 ∨ op = 1#2 ∨ op = 2#2 ∨ op = 3#2 := by decide
      obtain h | h | h | h := hop (w.extractLsb' 1 2) <;> rw [h] at hw
      · exact .inr (.inr (.inl hw))
      · exact .inr (.inr (.inr (.inl hw)))
      · exact .inr (.inr (.inr (.inr (.inl hw))))
      · exact .inr (.inr (.inr (.inr (.inr hw))))
    · exact .inr (.inl ⟨_, _, hrsvd, hw⟩)

/-! ## CTRL words (R83, R84) -/

theorem decodeCtrl_nop (ignored : BitVec 31) : decodeCtrl (ignored ++ 0#1) = .nop ignored := by
  have hstart : (ignored ++ 0#1 : Word).extractLsb' 0 1 = 0#1 := BitVec.extractLsb'_append_eq_right
  have hignored : (ignored ++ 0#1 : Word).extractLsb' 1 31 = ignored := BitVec.extractLsb'_append_eq_left
  have hnop : decodeCommand (ignored ++ 0#1) = .nop := if_pos hstart
  rw [decodeCtrl, hnop]
  exact congrArg Instr.nop hignored

theorem decodeCtrl_badcmdBits {rsvd : BitVec 29} (h : rsvd ≠ 0#29) (op : BitVec 2) :
    decodeCtrl (rsvd ++ (op ++ 1#1)) = .badcmdBits rsvd op := by
  have hbits : decodeCommand (rsvd ++ (op ++ 1#1)) = .badcmd .reservedBits := by
    rw [decodeCommand, startBit_of_fields, reservedBits_of_fields, if_neg (by decide), if_pos h]
  rw [decodeCtrl, hbits]
  simp only [reservedBits_of_fields, opField_of_fields]

/-! ## Register accesses (R80, R81) -/

/-- The instruction of a 32-bit access to a slot. -/
def slotInstr (d : Dir) (v : Word) (k : Slot) : Instr :=
  match d with
  | .write => writeInstr v k
  | .read => readInstr k

theorem slotAt_eq_some {off : BitVec 5} {k : Slot} (h : slotAt off = some k) : off = k.offset := by
  have hall : ∀ off : BitVec 5, (slotAt off).all fun k => k.offset == off := by decide
  have hoff := hall off
  rw [h] at hoff
  exact (eq_of_beq hoff).symm

/-- The accesses that decode are those of 32 bits at a slot's offset (R110). -/
theorem decodeMmio_eq_ok {a : Access} {i : Instr} :
    decodeMmio a = .ok i ↔ ∃ k : Slot, a.width = .w32 ∧ a.off = k.offset ∧ i = slotInstr a.dir a.data k := by
  obtain ⟨dir, off, width, data⟩ := a
  constructor
  · intro h
    unfold decodeMmio at h
    split at h
    · rename_i k hwidth hslot
      refine ⟨k, hwidth, slotAt_eq_some hslot, ?_⟩
      cases dir <;> exact (Except.ok.inj h).symm
    · cases h
  · rintro ⟨k, hwidth, hoff, rfl⟩
    subst hwidth hoff
    cases dir
    · exact decodeMmio_write_slot k data
    · exact decodeMmio_read_slot k data

theorem decode_writeAccess (k : Slot) (v : Word) : decode (writeAccess k v) = .ok (writeInstr v k) :=
  decodeMmio_write_slot k v

theorem decode_readAccess (k : Slot) : decode (readAccess k) = .ok (readInstr k) :=
  decodeMmio_read_slot k 0x00000000#32

theorem encode_writeInstr (k : Slot) (v : Word) : encode (writeInstr v k) = writeAccess k v := by
  cases k <;> rfl

theorem encode_readInstr (k : Slot) : encode (readInstr k) = readAccess k := by
  cases k <;> rfl

theorem wellFormed_slotInstr (d : Dir) (v : Word) (k : Slot) : (slotInstr d v k).wellFormed = true := by
  cases d <;> cases k <;> rfl

/-! ## Decoding an encoding -/

theorem decode_encode {i : Instr} (h : i.wellFormed = true) : decode (encode i) = .ok i := by
  cases i with
  | encode => rfl
  | decode => rfl
  | nop ignored => exact congrArg Except.ok (decodeCtrl_nop ignored)
  | badcmdOp op => cases op <;> rfl
  | badcmdBits rsvd op => exact congrArg Except.ok (decodeCtrl_badcmdBits (by simpa [Instr.wellFormed] using h) op)
  | wrSrc v => exact decode_writeAccess .src v
  | wrDst v => exact decode_writeAccess .dst v
  | wrLen v => exact decode_writeAccess .len v
  | wrCtrl w => exact decode_writeAccess .ctrl w
  | wrStatus v => exact decode_writeAccess .status v
  | wrResult v => exact decode_writeAccess .result v
  | wrRsvd off v => cases off <;> exact decode_writeAccess _ v
  | rdSrc => exact decode_readAccess .src
  | rdDst => exact decode_readAccess .dst
  | rdLen => exact decode_readAccess .len
  | rdCtrl => exact decode_readAccess .ctrl
  | rdStatus => exact decode_readAccess .status
  | rdResult => exact decode_readAccess .result
  | rdRsvd off => cases off <;> exact decode_readAccess _

/-! ## The byte form (log 13) -/

/-- The byte lanes of a word make the word (R52). -/
theorem bytesWord_wordBytes (w : Word) :
    bytesWord (w.extractLsb' 0 8) (w.extractLsb' 8 8) (w.extractLsb' 16 8) (w.extractLsb' 24 8) = w := by
  unfold bytesWord
  rw [BitVec.extractLsb'_append_extractLsb'_eq_extractLsb' (by decide),
    BitVec.extractLsb'_append_extractLsb'_eq_extractLsb' (by decide),
    BitVec.extractLsb'_append_extractLsb'_eq_extractLsb' (by decide), BitVec.extractLsb'_eq_self]

theorem dirOf_dirBit (d : Dir) : dirOf (dirBit d) = d := by
  cases d <;> rfl

theorem widthOf_widthBits (u : Width) : widthOf (widthBits u) = u := by
  cases u <;> rfl

theorem accessOf_accessByte (a : Access) : accessOf (accessByte a) a.data = a := by
  have hoff : (accessByte a).extractLsb' 0 5 = a.off := by
    rw [accessByte, BitVec.extractLsb'_append_eq_of_add_le (by decide), BitVec.extractLsb'_append_eq_right]
  have hdir : (accessByte a).extractLsb' 5 1 = dirBit a.dir := by
    rw [accessByte, BitVec.extractLsb'_append_eq_of_add_le (by decide), BitVec.extractLsb'_append_eq_left]
  have hwidth : (accessByte a).extractLsb' 6 2 = widthBits a.width := BitVec.extractLsb'_append_eq_left
  rw [accessOf, hoff, hdir, hwidth, dirOf_dirBit, widthOf_widthBits]

/-- Decoding the bytes of an encoding is decoding the encoding. -/
theorem decodeBytes_encodingBytes (e : Encoding) : decodeBytes (encodingBytes e) = decode e := by
  cases e with
  | ctrl w => exact congrArg (fun w => decode (.ctrl w)) (bytesWord_wordBytes w)
  | mmio a =>
    have hdata := bytesWord_wordBytes a.data
    show decode (.mmio (accessOf (accessByte a) (bytesWord _ _ _ _))) = _
    rw [hdata, accessOf_accessByte]

/-! ## The bus access -/

/-- An access of the window decodes on the bus as it does at its offset, wherever the window lies. -/
theorem decodeBus_busAccess_mmio {a : Access} {i : Instr} (h : decodeMmio a = .ok i) (base : Nat) :
    decodeBus base (busAccess base (.mmio a)) = .instr i := by
  obtain ⟨dir, off, width, data⟩ := a
  obtain ⟨k, hwidth, hoff, rfl⟩ := decodeMmio_eq_ok.mp h
  subst hwidth hoff
  exact carries_of_decodeMmio h base

theorem decodeBus_busAccess_ctrl (base : Nat) (w : Word) :
    decodeBus base (busAccess base (.ctrl w)) = .instr (.wrCtrl w) :=
  carries_write_slot .ctrl w base

/-! ## The match and mask table (R83, R92) -/

/-- NOP's row: mask 0x00000001, match 0. -/
theorem and_startMask_eq_zero_iff (w : Word) : w &&& 0x00000001#32 = 0x00000000#32 ↔ w.toNat % 2 = 0 := by
  rw [← BitVec.toNat_inj, BitVec.toNat_and]
  simp

/-- BADCMD_OP's row: mask 0xFFFFFFFD, match 5. Its words are the two that differ in bit 1. -/
theorem and_badcmdOpMask_eq_five_iff (w : Word) :
    w &&& 0xFFFFFFFD#32 = 0x00000005#32 ↔ w = 0x00000005#32 ∨ w = 0x00000007#32 := by
  constructor
  · intro h
    have hbit : w &&& 0x00000002#32 = 0x00000000#32 ∨ w &&& 0x00000002#32 = 0x00000002#32 := by
      have htwo := BitVec.and_twoPow w 1
      cases hw : w.getLsbD 1 <;> simp only [hw] at htwo
      · exact .inl htwo
      · exact .inr htwo
    have hsplit : w = (w &&& 0xFFFFFFFD#32) ||| (w &&& 0x00000002#32) := by
      rw [← BitVec.and_or_distrib_left]
      exact (BitVec.and_allOnes (x := w)).symm
    rw [h] at hsplit
    obtain hzero | htwo := hbit
    · rw [hzero] at hsplit
      exact .inl hsplit
    · rw [htwo] at hsplit
      exact .inr hsplit
  · rintro (rfl | rfl) <;> rfl

/-- Settles O9: the rows by the word's value, by which O8 decodes it. -/
theorem matchMaskTableIsDecodeCtrl : Obligations.MatchMaskTableIsDecodeCtrl := by
  intro w
  have hall : w &&& 0xFFFFFFFF#32 = w := BitVec.and_allOnes
  obtain ⟨heven, hrsvd, henc, hdec, hop⟩ := everyControlWordDecodes w
  simp only [hall, and_startMask_eq_zero_iff, and_badcmdOpMask_eq_five_iff]
  simp only [← BitVec.toNat_inj, BitVec.toNat_ofNat] at henc hdec hop ⊢
  refine ⟨?_, by omega, by omega⟩
  split
  · exact henc ‹_›
  · split
    · exact hdec ‹_›
    · split
      · exact heven ‹_›
      · split
        · exact hop ‹_›
        · exact hrsvd (by omega) (by omega)

/-! ## The statements -/

/-- Settles O10: the word form row by row; the byte form and the bus access decode as the word form does. -/
theorem decodingAnEncodingGivesTheInstruction : Obligations.DecodingAnEncodingGivesTheInstruction := by
  intro i hi
  have hdecode := decode_encode hi
  refine ⟨hdecode, (decodeBytes_encodingBytes (encode i)).trans hdecode, fun base => ⟨fun w hw => ?_, fun a ha => ?_⟩⟩
  · rw [hw]
    exact decodeBus_busAccess_ctrl base w
  · rw [ha] at hdecode ⊢
    exact decodeBus_busAccess_mmio hdecode base

/-- Settles O11: a CTRL word row by row; an access that decodes is that of a slot. -/
theorem encodingADecodedWordGivesTheWord : Obligations.EncodingADecodedWordGivesTheWord := by
  refine ⟨fun w => ?_, fun a i h => ?_⟩
  · obtain ⟨ignored, rfl⟩ | ⟨rsvd, op, hrsvd, rfl⟩ | rfl | rfl | rfl | rfl := ctrlWord_cases w
    · rw [decodeCtrl_nop]
      exact ⟨rfl, rfl⟩
    · rw [decodeCtrl_badcmdBits hrsvd]
      exact ⟨bne_iff_ne.mpr hrsvd, rfl⟩
    all_goals exact ⟨rfl, rfl⟩
  · obtain ⟨dir, off, width, data⟩ := a
    obtain ⟨k, hwidth, hoff, rfl⟩ := decodeMmio_eq_ok.mp h
    subst hwidth hoff
    refine ⟨wellFormed_slotInstr dir data k, ?_, ?_⟩
    · rintro ⟨⟩
      exact encode_writeInstr k data
    · rintro ⟨⟩
      exact encode_readInstr k

/-- Settles O12: each word by evaluating the decoder. -/
theorem commandWordsDecode : Obligations.CommandWordsDecode :=
  ⟨rfl, rfl, rfl, rfl, rfl, rfl⟩

end Sys2Proof
end

section
/-! PROOFS. ENCODE and DECODE under one description, a write region and a run of accesses, and all that an instruction of a
command can do (60_exceptions.md R224 to R229). O22 to O26, O21. -/

namespace Sys2Proof.Machine

open Sys2Proof.Safety

/-! ## A command that accesses memory -/

/-- A command that accesses memory, the write region it has in a state (R57), and the accesses it makes. -/
inductive CommandStart (s : State) : Command → Region → CommandRun → Prop where
  | encode : CommandStart s .encode (encodeArea s) (encodeRun s.regs.src.toNat s.regs.dst.toNat (source s))
  | decode : CommandStart s .decode (decodeArea s) (decodeRun s.regs.src.toNat s.regs.dst.toNat (source s))

/-- A statement's two cases of a command and its write region. -/
theorem exists_commandStart {s : State} {c : Command} {wr : Region}
    (h : c = .encode ∧ wr = encodeArea s ∨ c = .decode ∧ wr = decodeArea s) : ∃ run, CommandStart s c wr run := by
  obtain ⟨rfl, rfl⟩ | ⟨rfl, rfl⟩ := h
  · exact ⟨_, .encode⟩
  · exact ⟨_, .decode⟩

namespace CommandStart

section
variable {s : State} {c : Command} {wr : Region} {run : CommandRun} (h : CommandStart s c wr run)
include h

theorem exec_valid {i : Instr} (hi : instrCommand i = some c) (hargs : ArgsValid s) :
    exec i s = runCommand (readArea s) wr run s := by
  cases h with
  | encode => rw [exec_of_encode hi, encodeCommandEffect_valid hargs]
  | decode => rw [exec_of_decode hi, decodeCommandEffect_valid hargs]

theorem exec_invalid {i : Instr} {r : ArgReason} (hi : instrCommand i = some c) (hr : checkArgs (operands s) = some r) :
    exec i s = .next (finish (.invalidArguments r) 0x00000000#32 s) := by
  cases h with
  | encode => rw [exec_of_encode hi, encodeCommandEffect_invalid hr]
  | decode => rw [exec_of_decode hi, decodeCommandEffect_invalid hr]

theorem commandRegions_eq (hargs : ArgsValid s) : commandRegions c s = some (readArea s, wr) := by
  have hcheck := checkArgs_eq_none.mpr hargs
  cases h with
  | encode => simp only [commandRegions, hcheck, encodeWriteRegion_eq, readRegion_eq]
  | decode => simp only [commandRegions, hcheck, decodeWriteRegion_eq, readRegion_eq]

theorem within_of_mem_writtenAddresses (hargs : ArgsValid s) {a : Nat} (ha : a ∈ writtenAddresses run.trace) :
    within wr a := by
  cases h with
  | encode =>
    rw [(encodeRun_writesBuffer _ _ _).mem_addresses, segmentForm_length] at ha
    exact ha
  | decode =>
    rw [decodeArea_eq]
    exact within_of_mem_writtenAddresses_decodeRun (source_ne_nil hargs) ha

/-- The description depends on the arguments and the source bytes alone. -/
theorem congr_state {u : State} (hsrc : u.regs.src = s.regs.src) (hdst : u.regs.dst = s.regs.dst)
    (hlen : u.regs.len = s.regs.len) (hsource : source u = source s) : CommandStart u c wr run := by
  cases h with
  | encode =>
    rw [← hsrc, ← hdst, ← hsource, encodeArea, ← hdst, ← hsource]
    exact .encode
  | decode =>
    rw [← hsrc, ← hdst, ← hsource, decodeArea, ← hdst, ← hlen]
    exact .decode

end

end CommandStart

/-! ## All that a command can do -/

/-- The next states of a command that accesses memory, with its write region and its run (R224). -/
inductive CommandOutcome (s : State) (wr : Region) (run : CommandRun) : State → Prop where
  | invalid (r : ArgReason) : CommandOutcome s wr run (finish (.invalidArguments r) 0x00000000#32 s)
  | busError (args : ArgsValid s) (defined : RegionsDefined (readArea s) wr s) (k : AccessKind) :
      CommandOutcome s wr run (finish (.busError k) 0x00000000#32 (havoc wr s))
  | malformed (args : ArgsValid s) (defined : RegionsDefined (readArea s) wr s) (r : MalformedReason)
      (ending : run.ending = .malformed r) :
      CommandOutcome s wr run (finish (.malformedStream r) 0x00000000#32 (havoc wr s))
  | success (args : ArgsValid s) (defined : RegionsDefined (readArea s) wr s)
      (answered : busErrorKind s run.trace = none) {n : Nat} (ending : run.ending = .success n) :
      CommandOutcome s wr run (finish .success (BitVec.ofNat 32 n) { s with mem := applyWrites s.mem run.trace })

/-- The next states of an instruction that performs a command: NOP's, that of a rejected word or of invalid arguments, that of
a BusError or a MalformedStream, and that of a success. -/
inductive CommandEffect (s : State) (c : Command) : State → Prop where
  | nop : CommandEffect s c s
  | rejected (k : Completion) (hk : k ≠ .success) : CommandEffect s c (finish k 0x00000000#32 s)
  | failed {wr : Region} (defined : RegionsDefined (readArea s) wr s) (k : Completion) (hk : k ≠ .success) :
      CommandEffect s c (finish k 0x00000000#32 (havoc wr s))
  | succeeded {wr : Region} {run : CommandRun} (start : CommandStart s c wr run) (args : ArgsValid s)
      (defined : RegionsDefined (readArea s) wr s) (n : Nat) :
      CommandEffect s c (finish .success (BitVec.ofNat 32 n) { s with mem := applyWrites s.mem run.trace })

section
variable {s t : State} {c : Command} {wr : Region} {run : CommandRun} {i : Instr} (start : CommandStart s c wr run)
  (hi : instrCommand i = some c) (h : exec i s = .next t)
include start hi h

theorem CommandStart.outcome : CommandOutcome s wr run t := by
  obtain hargs | ⟨r, hr⟩ := args_cases s
  · rw [start.exec_valid hi hargs] at h
    obtain ⟨hdef, ⟨k, -, rfl⟩ | ⟨-, r, hending, rfl⟩ | ⟨hbus, n, hending, rfl⟩⟩ := runCommand_eq_next h
    · exact .busError hargs hdef k
    · exact .malformed hargs hdef r hending
    · exact .success hargs hdef hbus hending
  · rw [start.exec_invalid hi hr] at h
    cases h
    exact .invalid r

theorem CommandStart.effect : CommandEffect s c t := by
  cases start.outcome hi h with
  | invalid r => exact .rejected _ (by simp)
  | busError hargs hdef k => exact .failed hdef _ (by simp)
  | malformed hargs hdef r hending => exact .failed hdef _ (by simp)
  | success hargs hdef hbus hending => exact .succeeded start hargs hdef _

/-- The bytes outside its write region are as they were, however the command ends (R57). -/
theorem CommandStart.sameOutside : SameOutside wr s.mem t.mem := by
  cases start.outcome hi h with
  | invalid r => exact fun _ _ => rfl
  | busError hargs hdef k => exact havoc_sameOutside wr s
  | malformed hargs hdef r hending => exact havoc_sameOutside wr s
  | success hargs hdef hbus hending =>
    exact fun a ha => read_applyWrites_outside s.mem run.trace a
      (mt (start.within_of_mem_writtenAddresses hargs) ha)

/-- The STATUS words a command that accesses memory leaves, MalformedStream's only where its run meets a zero (R221). -/
theorem CommandStart.status_cases :
    t.regs.status = 0x00000100#32 ∨ t.regs.result = 0x00000000#32 ∧
      ((∃ r, t.regs.status = (Completion.invalidArguments r).status) ∨
        (∃ k, t.regs.status = (Completion.busError k).status) ∨
        ∃ r, run.ending = .malformed r ∧ t.regs.status = (Completion.malformedStream r).status) := by
  cases start.outcome hi h with
  | invalid r => exact .inr ⟨rfl, .inl ⟨r, rfl⟩⟩
  | busError hargs hdef k => exact .inr ⟨rfl, .inr (.inl ⟨k, rfl⟩)⟩
  | malformed hargs hdef r hending => exact .inr ⟨rfl, .inr (.inr ⟨r, hending, rfl⟩)⟩
  | success hargs hdef hbus hending => exact .inl status_success

end

theorem exec_command_effect {i : Instr} {c : Command} {s t : State} (hi : instrCommand i = some c)
    (h : exec i s = .next t) : CommandEffect s c t := by
  cases c with
  | nop =>
    rw [exec_of_nop hi] at h
    cases h
    exact .nop
  | badcmd r =>
    rw [exec_of_badcmd hi] at h
    cases h
    exact .rejected _ (by simp)
  | encode => exact CommandStart.encode.effect hi h
  | decode => exact CommandStart.decode.effect hi h

/-- With invalid arguments a command leaves memory as it is. -/
theorem mem_eq_of_checkArgs {i : Instr} {r : ArgReason} {s t : State} (hi : i = .encode ∨ i = .decode)
    (hr : checkArgs (operands s) = some r) (h : exec i s = .next t) : t.mem = s.mem := by
  obtain rfl | rfl := hi
  · rw [CommandStart.encode.exec_invalid rfl hr] at h
    cases h
    rfl
  · rw [CommandStart.decode.exec_invalid rfl hr] at h
    cases h
    rfl

/-! ## Whether a command is defined, duty by duty (R58 to R64) -/

open scoped Classical in
/-- The fault of a command in the terms of the host's duties. -/
theorem commandFault_eq_ite (rr wr : Region) (s : State) :
    commandFault rr wr s =
      if ¬ (rr.base + rr.size ≤ 2 ^ 32 ∧ wr.base + wr.size ≤ 2 ^ 32) then some .addressWrap
      else if ¬ (OrdinaryArea s.plat rr ∧ OrdinaryArea s.plat wr) then some .sideEffectingRegion
      else if ¬ ∀ a, ¬ (within rr a ∧ within wr a) then some .overlap
      else if ¬ ∀ e ∈ s.concurrent, Undisturbing rr wr e then some .concurrentAccess
      else none := by
  have hfits : (rr.wraps || wr.wraps) = true ↔ ¬ (rr.base + rr.size ≤ 2 ^ 32 ∧ wr.base + wr.size ≤ 2 ^ 32) := by
    rw [Bool.or_eq_true, Region.wraps_iff, Region.wraps_iff]
    omega
  have hordinary : (!s.plat.ordinary rr || !s.plat.ordinary wr) = true ↔
      ¬ (OrdinaryArea s.plat rr ∧ OrdinaryArea s.plat wr) := by
    rw [← Platform.ordinary_iff, ← Platform.ordinary_iff, ← Bool.and_eq_true, ← Bool.not_and, Bool.not_eq_true,
      Bool.not_eq_true']
  have hapart : rr.meets wr = true ↔ ¬ ∀ a, ¬ (within rr a ∧ within wr a) := by
    rw [Region.meets_iff, not_forall_not]
  have hundisturbed : s.concurrent.any (AgentAccess.clashes rr wr) = true ↔
      ¬ ∀ e ∈ s.concurrent, Undisturbing rr wr e := by
    simp [← AgentAccess.clashes_iff]
  exact if_congr hfits rfl (if_congr hordinary rfl (if_congr hapart rfl (if_congr hundisturbed rfl rfl)))

theorem runCommand_of_fault {rr wr : Region} {s : State} {f : Fault} (run : CommandRun)
    (h : commandFault rr wr s = some f) : runCommand rr wr run s = .fault f := by
  simp only [runCommand, h]

theorem runCommand_completes {rr wr : Region} {s : State} (run : CommandRun) (h : RegionsDefined rr wr s) :
    ∃ t, runCommand rr wr run s = .next t :=
  ⟨_, runCommand_of_defined run h⟩

theorem runCommand_ne_refused (rr wr : Region) (run : CommandRun) (s : State) (r : Refusal) :
    runCommand rr wr run s ≠ .refused r := by
  cases hfault : commandFault rr wr s with
  | some f => simp [runCommand_of_fault run hfault]
  | none => simp [runCommand_of_defined run (commandFault_eq_none.mp hfault)]

/-- With invalid arguments or defined regions a command completes. -/
theorem CommandStart.completes {s : State} {c : Command} {wr : Region} {run : CommandRun} {i : Instr}
    (start : CommandStart s c wr run) (hi : instrCommand i = some c)
    (h : ¬ ArgsValid s ∨ RegionsDefined (readArea s) wr s) : ∃ t, exec i s = .next t := by
  obtain hargs | ⟨r, hr⟩ := args_cases s
  · rw [start.exec_valid hi hargs]
    exact runCommand_completes run (h.resolve_left (not_not_intro hargs))
  · exact ⟨_, start.exec_invalid hi hr⟩

theorem exec_command_ne_refused {i : Instr} {c : Command} (hi : instrCommand i = some c) (s : State) (r : Refusal) :
    exec i s ≠ .refused r := by
  have haccessing {wr run} (start : CommandStart s c wr run) : exec i s ≠ .refused r := by
    obtain hargs | ⟨q, hq⟩ := args_cases s
    · rw [start.exec_valid hi hargs]
      exact runCommand_ne_refused _ _ _ s r
    · simp [start.exec_invalid hi hq]
  cases c with
  | nop => simp [exec_of_nop hi]
  | badcmd q => simp [exec_of_badcmd hi]
  | encode => exact haccessing .encode
  | decode => exact haccessing .decode

/-! ## The statements -/

/-- Settles O21: DST is zero, the first cause of O20. -/
theorem commandOnResetRegistersFails : Obligations.CommandOnResetRegistersFails := by
  intro s hregs
  obtain ⟨henc, -⟩ := argumentCausesAreReportedInOrder s .encode (.inl rfl)
  obtain ⟨hdec, -⟩ := argumentCausesAreReportedInOrder s .decode (.inr rfl)
  rw [hregs] at henc hdec
  exact ⟨henc rfl, hdec rfl⟩

/-- Settles O22: each effect of a command changes STATUS, RESULT, memory and the count of draws at most. -/
theorem commandsKeepTheArguments : Obligations.CommandsKeepTheArguments := by
  intro i s t h hi
  obtain ⟨c, hc⟩ : ∃ c, instrCommand i = some c := by
    obtain rfl | rfl | ⟨b, rfl⟩ | ⟨op, rfl⟩ | ⟨r, o, rfl⟩ | ⟨w, rfl⟩ := hi <;> exact ⟨_, rfl⟩
  cases exec_command_effect hc h <;> exact ⟨rfl, rfl, rfl, rfl, rfl, rfl, rfl⟩

/-- Settles O23: the model's write region is that of the command's description. -/
theorem commandsChangeOnlyTheirWriteRegion : Obligations.CommandsChangeOnlyTheirWriteRegion := by
  intro s t
  refine ⟨fun h a ha => ?_, fun h a ha => ?_, ?_, ?_⟩
  · rw [encodeWriteRegion_eq, ← Bool.not_eq_true, Region.contains_iff] at ha
    exact CommandStart.encode.sameOutside rfl h a ha
  · rw [decodeWriteRegion_eq, ← Bool.not_eq_true, Region.contains_iff] at ha
    exact CommandStart.decode.sameOutside rfl h a ha
  · rintro ⟨r, hr⟩ (h | h) a
    · rw [mem_eq_of_checkArgs (.inl rfl) hr h]
    · rw [mem_eq_of_checkArgs (.inr rfl) hr h]
  · rintro (⟨op, h⟩ | ⟨r, o, h⟩ | ⟨b, h⟩) a
    · cases h
      rfl
    · cases h
      rfl
    · cases h
      rfl

/-- Settles O24: the words of the outcomes, written out; ENCODE's run meets no zero byte that ends it. -/
theorem commandsLeaveOnlyTheirOutcomes : Obligations.CommandsLeaveOnlyTheirOutcomes := by
  intro s t
  constructor
  · intro h
    obtain hstatus | ⟨hresult, ⟨r, hstatus⟩ | ⟨k, hstatus⟩ | ⟨r, hending, -⟩⟩ := CommandStart.encode.status_cases rfl h
    · exact ⟨by simp [hstatus], fun hne => absurd hstatus hne⟩
    · exact ⟨by cases r <;> simp [hstatus], fun _ => hresult⟩
    · exact ⟨by cases k <;> simp [hstatus], fun _ => hresult⟩
    · cases hending
  · intro h
    obtain hstatus | ⟨hresult, ⟨r, hstatus⟩ | ⟨k, hstatus⟩ | ⟨r, -, hstatus⟩⟩ := CommandStart.decode.status_cases rfl h
    · exact ⟨by simp [hstatus], fun hne => absurd hstatus hne⟩
    · exact ⟨by cases r <;> simp [hstatus], fun _ => hresult⟩
    · exact ⟨by cases k <;> simp [hstatus], fun _ => hresult⟩
    · exact ⟨by cases r <;> simp [hstatus], fun _ => hresult⟩

/-- Settles O25: the fault is that of the first duty broken; with none broken the regions are defined. -/
theorem undefinedCommandsFault : Obligations.UndefinedCommandsFault := by
  intro s i wr hi hargs fits ordinary apart undisturbed
  obtain ⟨c, run, hc, start⟩ : ∃ c run, instrCommand i = some c ∧ CommandStart s c wr run := by
    obtain ⟨rfl, rfl⟩ | ⟨rfl, rfl⟩ := hi
    · exact ⟨_, _, rfl, .encode⟩
    · exact ⟨_, _, rfl, .decode⟩
  have hfault := commandFault_eq_ite (readArea s) wr s
  rw [start.exec_valid hc hargs]
  refine ⟨fun h1 => ?_, fun h1 h2 => ?_, fun h1 h2 h3 => ?_, fun h1 h2 h3 h4 => ?_, fun h1 h2 h3 h4 => ?_⟩
  · exact runCommand_of_fault run (hfault.trans (if_pos h1))
  · exact runCommand_of_fault run (by rw [hfault, if_neg (not_not_intro h1), if_pos h2])
  · exact runCommand_of_fault run (by
      rw [hfault, if_neg (not_not_intro h1), if_neg (not_not_intro h2), if_pos h3])
  · exact runCommand_of_fault run (by
      rw [hfault, if_neg (not_not_intro h1), if_neg (not_not_intro h2), if_neg (not_not_intro h3), if_pos h4])
  · exact runCommand_completes run ⟨h1.1, h1.2, h2.1, h2.2, h3, h4⟩

/-- Settles O26: WR_CTRL is an instruction of its word's command; successes are those of O28 and O33. -/
theorem controlWritesComplete : Obligations.ControlWritesComplete := by
  intro w s
  refine ⟨fun h => exec_of_nop (instrCommand_wrCtrl h) s, fun r h => ⟨_, exec_of_badcmd (instrCommand_wrCtrl h) s, rfl, ?_⟩,
    fun h => CommandStart.encode.completes (instrCommand_wrCtrl h),
    fun h => CommandStart.decode.completes (instrCommand_wrCtrl h), fun h hargs hdef hbus => ?_,
    fun h hargs hdef hbus hfree => ?_, exec_command_ne_refused rfl s⟩
  · exact (status_fields _).1
  · obtain ⟨t, hexec, hstatus, hresult, -⟩ := exec_encode_outcome hargs hdef hbus
    rw [exec_congr_command (instrCommand_wrCtrl h) (show instrCommand .encode = some .encode from rfl)]
    exact ⟨t, hexec, hstatus, hresult.trans (segmentForm_length (source s))⟩
  · obtain ⟨bs, t, htiles, hbytes, hexec, hwrote⟩ := exists_tiles_exec_decode_wrote hargs hdef hbus hfree
    obtain ⟨-, hlt⟩ := decodeRun_writesBuffer htiles 0 0
    rw [hbytes] at hlt
    rw [exec_congr_command (instrCommand_wrCtrl h) (show instrCommand .decode = some .decode from rfl)]
    refine ⟨t, hexec, hwrote.status_eq, ?_⟩
    rw [hwrote.result_toNat (hlt.trans (source_length_lt hargs))]
    exact hlt

end Sys2Proof.Machine
end

section
/-! PROOFS. What the accesses of other agents and the events of the queue do, and the invariant of every step (10_state.md R29,
40_register_access.md R110, 70_reset_and_hazards.md R260, R261). O1 to O7, O47, O52. -/

namespace Sys2Proof.Machine

open Sys2Proof.Safety

/-! ## The accesses of other agents (log 10) -/

/-- The memory after the stores of a list of accesses of other agents. -/
def agentStores (m : Memory) : List AgentAccess → Memory
  | [] => m
  | .read _ :: rest => agentStores m rest
  | .write a v :: rest => agentStores (Memory.write m a.toNat v) rest

/-- An access of another agent that the platform lets by: no byte of the block's window (R89, R110), and no store to a device
(log 11). -/
def AgentAllowed (p : Platform) : AgentAccess → Prop
  | .read a => ¬ within p.window a.toNat
  | .write a _ => ¬ within p.window a.toNat ∧ ∀ d ∈ p.devices, ¬ within d a.toNat

theorem AgentAllowed.not_within_window {p : Platform} {e : AgentAccess} (h : AgentAllowed p e) :
    ¬ within p.window e.address := by
  cases e with
  | read a => exact h
  | write a v => exact h.1

theorem any_contains_iff {ds : List Region} {a : Nat} :
    (ds.any fun d => d.contains a) = true ↔ ∃ d ∈ ds, within d a := by
  simp only [List.any_eq_true, Region.contains_iff]

theorem agentStore_of_window {a : Word} {v : Byte} {s : State} (h : within s.plat.window a.toNat) :
    agentStore a v s = .refused .accessSize :=
  if_pos (Region.contains_iff.mpr h)

theorem agentStore_of_device {a : Word} {v : Byte} {s : State} (hwin : ¬ within s.plat.window a.toNat)
    (hdev : ∃ d ∈ s.plat.devices, within d a.toNat) : agentStore a v s = .refused .deviceStore := by
  rw [agentStore, if_neg (mt Region.contains_iff.mp hwin), if_pos (any_contains_iff.mpr hdev)]

theorem agentStore_of_ordinary {a : Word} {v : Byte} {s : State} (hwin : ¬ within s.plat.window a.toNat)
    (hdev : ∀ d ∈ s.plat.devices, ¬ within d a.toNat) :
    agentStore a v s = .next { s with mem := Memory.write s.mem a.toNat v } := by
  rw [agentStore, if_neg (mt Region.contains_iff.mp hwin),
    if_neg (mt any_contains_iff.mp fun ⟨d, hd, ha⟩ => hdev d hd ha)]

theorem agentRead_of_window {a : Word} {s : State} (h : within s.plat.window a.toNat) :
    agentRead a s = .refused .accessSize :=
  if_pos (Region.contains_iff.mpr h)

/-- A store goes on exactly where it is allowed. -/
theorem agentStore_eq_next_iff {a : Word} {v : Byte} {s t : State} :
    agentStore a v s = .next t ↔
      AgentAllowed s.plat (.write a v) ∧ t = { s with mem := Memory.write s.mem a.toNat v } := by
  by_cases hwin : within s.plat.window a.toNat
  · simp [agentStore_of_window hwin, AgentAllowed, hwin]
  · by_cases hdev : ∃ d ∈ s.plat.devices, within d a.toNat
    · simp [agentStore_of_device hwin hdev, AgentAllowed, hdev]
    · rw [agentStore_of_ordinary hwin fun d hd ha => hdev ⟨d, hd, ha⟩]
      constructor
      · intro h
        exact ⟨⟨hwin, fun d hd ha => hdev ⟨d, hd, ha⟩⟩, (Host.Outcome.next.inj h).symm⟩
      · rintro ⟨-, rfl⟩
        rfl

/-- A list of accesses goes on exactly where each of them is allowed, and leaves its stores. -/
theorem agentAccesses_eq_next_iff {es : List AgentAccess} {s t : State} :
    agentAccesses s es = .next t ↔
      (∀ e ∈ es, AgentAllowed s.plat e) ∧ t = { s with mem := agentStores s.mem es } := by
  induction es generalizing s with
  | nil =>
    rw [agentAccesses]
    exact ⟨fun h => ⟨by simp, (Host.Outcome.next.inj h).symm⟩, fun ⟨_, h⟩ => congrArg Host.Outcome.next h.symm⟩
  | cons e es ih =>
    rw [List.forall_mem_cons]
    cases e with
    | read a =>
      simp only [agentAccesses, andThen_eq_next, agentRead_eq_next]
      constructor
      · rintro ⟨u, ⟨hread, rfl⟩, h⟩
        exact ⟨⟨hread, (ih.mp h).1⟩, (ih.mp h).2⟩
      · rintro ⟨⟨hread, hall⟩, rfl⟩
        exact ⟨s, ⟨hread, rfl⟩, ih.mpr ⟨hall, rfl⟩⟩
    | write a v =>
      simp only [agentAccesses, andThen_eq_next, agentStore_eq_next_iff]
      constructor
      · rintro ⟨u, ⟨hwrite, rfl⟩, h⟩
        exact ⟨⟨hwrite, (ih.mp h).1⟩, (ih.mp h).2⟩
      · rintro ⟨⟨hwrite, hall⟩, rfl⟩
        exact ⟨_, ⟨hwrite, rfl⟩, ih.mpr ⟨hall, rfl⟩⟩

theorem agentAccesses_of_allowed {es : List AgentAccess} {s : State} (h : ∀ e ∈ es, AgentAllowed s.plat e) :
    agentAccesses s es = .next { s with mem := agentStores s.mem es } :=
  agentAccesses_eq_next_iff.mpr ⟨h, rfl⟩

theorem agentAccesses_of_window_head {e : AgentAccess} (es : List AgentAccess) {s : State}
    (h : within s.plat.window e.address) : agentAccesses s (e :: es) = .refused .accessSize := by
  cases e with
  | read a => rw [agentAccesses, agentRead_of_window h, andThen_refused]
  | write a v => rw [agentAccesses, agentStore_of_window h, andThen_refused]

/-! ## The step on each event -/

theorem step_access {s : State} {a : BusAccess} {others : List AgentAccess} {rest : List HostEvent}
    (h : s.inbox = .access a others :: rest) :
    step s = andThen (hostAccess exec a { s with inbox := rest, reply := none, concurrent := others })
      fun t => agentAccesses { t with concurrent := [] } others := by
  rw [step_cons h]
  rfl

theorem step_store {s : State} {a : Word} {v : Byte} {rest : List HostEvent} (h : s.inbox = .store a v :: rest) :
    step s = agentStore a v (takeEvent s rest) := by
  rw [step_cons h]
  rfl

theorem step_reset {s : State} {rest : List HostEvent} (h : s.inbox = .reset :: rest) :
    step s = .next (blockReset (takeEvent s rest)) := by
  rw [step_cons h]
  rfl

theorem step_resetDuring {s : State} {a : BusAccess} {others : List AgentAccess} {rest : List HostEvent}
    (h : s.inbox = .resetDuring a others :: rest) :
    step s = andThen (hostAccess abandon a { s with inbox := rest, reply := none, concurrent := others })
      fun u => agentAccesses { blockReset u with concurrent := [] } others := by
  rw [step_cons h]
  show andThen (andThen (hostAccess abandon a { s with inbox := rest, reply := none, concurrent := others })
    fun u => .next (blockReset u)) (fun t => agentAccesses { t with concurrent := [] } others) = _
  cases hostAccess abandon a { s with inbox := rest, reply := none, concurrent := others } <;> rfl

section
variable {s : State} {a : BusAccess} (f : Instr → State → Result)

theorem hostAccess_of_instr {i : Instr} (h : decodeBus s.plat.regBase a = .instr i) : hostAccess f a s = f i s := by
  simp only [hostAccess, h]

theorem hostAccess_of_notOurs (h : decodeBus s.plat.regBase a = .notOurs) : hostAccess f a s = .next s := by
  simp only [hostAccess, h]

theorem hostAccess_of_rejected {e : DecodeError} (h : decodeBus s.plat.regBase a = .rejected e) :
    hostAccess f a s = .refused .accessSize := by
  simp only [hostAccess, h]

end

/-! ## The invariant -/

/-- The invariant but for the accesses in progress (`MachineInv` says there are none between steps). -/
structure ActiveInv (s : State) : Prop where
  memory : Memory.wf s.mem = true
  status : legalStatus s.regs.status
  result : s.regs.status ≠ 0x00000100#32 → s.regs.result = 0x00000000#32

theorem ActiveInv.finish {c : Completion} {r : Word} {s : State} (hmem : Memory.wf s.mem = true)
    (hr : c ≠ .success → r = 0x00000000#32) : ActiveInv (finish c r s) :=
  ⟨hmem, .inr ⟨c, rfl⟩, fun hne => hr (mt status_eq_success.mpr hne)⟩

theorem ActiveInv.blockReset {s : State} (hmem : Memory.wf s.mem = true) : ActiveInv (blockReset s) :=
  ⟨hmem, .inl rfl, fun _ => rfl⟩

theorem wf_havoc {r : Region} {s : State} (h : Memory.wf s.mem = true) (hfits : r.base + r.size ≤ 2 ^ 32) :
    Memory.wf (havoc r s).mem = true :=
  Memory.wf_fillFree _ _ _ h hfits

/-- The run of a defined command writes no address beyond the last (R58). -/
theorem CommandStart.wf_applyWrites {s : State} {c : Command} {wr : Region} {run : CommandRun} {m : Memory}
    (start : CommandStart s c wr run) (hargs : ArgsValid s) (hfits : wr.base + wr.size ≤ 2 ^ 32)
    (h : Memory.wf m = true) : Memory.wf (applyWrites m run.trace) = true :=
  Machine.wf_applyWrites _ h fun _ ha =>
    Nat.lt_of_lt_of_le (start.within_of_mem_writtenAddresses hargs ha).2 hfits

theorem exec_keeps_activeInv {i : Instr} {s t : State} (hinv : ActiveInv s) (h : exec i s = .next t) :
    ActiveInv t := by
  cases hi : instrCommand i with
  | none =>
    obtain rfl | ⟨k, rfl⟩ | ⟨v, k, -, rfl⟩ := exec_cases_of_no_command (by simp [hi]) h
    · exact hinv
    · exact ⟨hinv.memory, hinv.status, hinv.result⟩
    · refine ⟨?_, ?_, ?_⟩
      · rw [writeSlot_mem]
        exact hinv.memory
      · rw [writeSlot_status_kept]
        exact hinv.status
      · rw [writeSlot_status_kept, writeSlot_result_kept]
        exact hinv.result
  | some c =>
    cases exec_command_effect hi h with
    | nop => exact hinv
    | rejected k hk => exact .finish hinv.memory fun _ => rfl
    | failed hdef k hk => exact .finish (wf_havoc hinv.memory hdef.writeFits) fun _ => rfl
    | succeeded start hargs hdef n =>
      exact .finish (start.wf_applyWrites hargs hdef.writeFits hinv.memory) fun hne => absurd rfl hne

theorem exec_keeps_platform {i : Instr} {s t : State} (h : exec i s = .next t) :
    t.plat = s.plat ∧ s.draws ≤ t.draws := by
  cases hi : instrCommand i with
  | none =>
    obtain rfl | ⟨k, rfl⟩ | ⟨v, k, -, rfl⟩ := exec_cases_of_no_command (by simp [hi]) h
    · exact ⟨rfl, le_rfl⟩
    · exact ⟨rfl, le_rfl⟩
    · exact ⟨writeSlot_plat s v k, (writeSlot_draws s v k).ge⟩
  | some c =>
    cases exec_command_effect hi h with
    | nop => exact ⟨rfl, le_rfl⟩
    | rejected k hk => exact ⟨rfl, le_rfl⟩
    | failed hdef k hk => exact ⟨rfl, Nat.le_add_right _ _⟩
    | succeeded start hargs hdef n => exact ⟨rfl, le_rfl⟩

/-! ## All that a step can do -/

/-- The next states of the block's own part of a step with an access: none of its business, its instruction, a reset, or a reset
that abandons a defined command (R261). -/
inductive AccessEffect (s : State) : State → Prop where
  | none : AccessEffect s s
  | instr {i : Instr} {t : State} (h : exec i s = .next t) : AccessEffect s t
  | reset : AccessEffect s (blockReset s)
  | abandoned {rr wr : Region} (h : RegionsDefined rr wr s) : AccessEffect s (blockReset (havoc wr s))

theorem AccessEffect.of_hostAccess_exec {a : BusAccess} {s t : State} (h : hostAccess exec a s = .next t) :
    AccessEffect s t := by
  obtain ⟨-, rfl⟩ | ⟨i, -, hexec⟩ := hostAccess_eq_next h
  · exact .none
  · exact .instr hexec

theorem AccessEffect.of_hostAccess_abandon {a : BusAccess} {s t : State} (h : hostAccess abandon a s = .next t) :
    AccessEffect s (blockReset t) := by
  obtain ⟨-, rfl⟩ | ⟨i, -, habandon⟩ := hostAccess_eq_next h
  · exact .reset
  · obtain rfl | ⟨rr, wr, hdef, rfl⟩ := abandon_eq_next habandon
    · exact .reset
    · exact .abandoned hdef

theorem AccessEffect.keeps_activeInv {s t : State} (h : AccessEffect s t) (hinv : ActiveInv s) : ActiveInv t := by
  cases h with
  | none => exact hinv
  | instr hexec => exact exec_keeps_activeInv hinv hexec
  | reset => exact .blockReset hinv.memory
  | abandoned hdef => exact .blockReset (wf_havoc hinv.memory hdef.writeFits)

theorem AccessEffect.keeps_platform {s t : State} (h : AccessEffect s t) : t.plat = s.plat ∧ s.draws ≤ t.draws := by
  cases h with
  | none => exact ⟨rfl, le_rfl⟩
  | instr hexec => exact exec_keeps_platform hexec
  | reset => exact ⟨rfl, le_rfl⟩
  | abandoned hdef => exact ⟨rfl, Nat.le_add_right _ _⟩

/-- The next states of a step: at rest, a store, a reset, or an access with the stores of other agents after it. -/
inductive StepEffect (s : State) : State → Prop where
  | rest : StepEffect s s
  | store (rest : List HostEvent) (a : Word) (v : Byte) :
      StepEffect s { takeEvent s rest with mem := Memory.write s.mem a.toNat v }
  | reset (rest : List HostEvent) : StepEffect s (blockReset (takeEvent s rest))
  | access {rest : List HostEvent} {others : List AgentAccess} {u t : State}
      (own : AccessEffect { takeEvent s rest with concurrent := others } u)
      (stores : agentAccesses { u with concurrent := [] } others = .next t) : StepEffect s t

theorem step_effect {s t : State} (h : step s = .next t) : StepEffect s t := by
  cases hinbox : s.inbox with
  | nil =>
    rw [step_nil hinbox] at h
    cases h
    exact .rest
  | cons e rest =>
    cases e with
    | access a others =>
      rw [step_access hinbox] at h
      obtain ⟨u, hown, hstores⟩ := andThen_eq_next.mp h
      exact .access (.of_hostAccess_exec hown) hstores
    | store a v =>
      rw [step_store hinbox] at h
      rw [agentStore_eq_next h]
      exact .store rest a v
    | reset =>
      rw [step_reset hinbox] at h
      cases h
      exact .reset rest
    | resetDuring a others =>
      rw [step_resetDuring hinbox] at h
      obtain ⟨u, hown, hstores⟩ := andThen_eq_next.mp h
      exact .access (.of_hostAccess_abandon hown) hstores

/-! ## The statements -/

/-- Settles O1: each is the definition evaluated, the step on a reset event by `step_reset`. -/
theorem resetClearsRegistersAndKeepsMemory : Obligations.ResetClearsRegistersAndKeepsMemory :=
  ⟨rfl, exec_readInstr .ctrl, fun off s => exec_rdRsvd off s, fun _ _ h => step_reset h⟩

/-- Settles O2: memory is empty, the registers are zero and nothing is in progress. -/
theorem resetMeetsTheInvariant : Obligations.ResetMeetsTheInvariant :=
  ⟨rfl, .inl rfl, fun _ => rfl, rfl⟩

/-- Settles O3: by all that a step can do; an access keeps the invariant but for the accesses in progress, of which none is left
when the stores of other agents are done. -/
theorem stepKeepsTheInvariant : Obligations.StepKeepsTheInvariant := by
  intro s t hinv h
  cases step_effect h with
  | rest => exact hinv
  | store rest a v => exact ⟨Memory.wf_write v hinv.memory a.isLt, hinv.status, hinv.result, hinv.idle⟩
  | reset rest => exact ⟨hinv.memory, .inl rfl, fun _ => rfl, hinv.idle⟩
  | access own stores =>
    obtain ⟨hmem, hstatus, hresult⟩ := own.keeps_activeInv ⟨hinv.memory, hinv.status, hinv.result⟩
    obtain ⟨hkept, hwf⟩ := agentAccesses_eq_next stores
    rw [hkept]
    exact ⟨hwf hmem, hstatus, hresult, rfl⟩

/-- Settles O4: by all that a step can do. -/
theorem stepKeepsThePlatform : Obligations.StepKeepsThePlatform := by
  intro s t h
  cases step_effect h with
  | rest => exact ⟨rfl, le_rfl⟩
  | store rest a v => exact ⟨rfl, le_rfl⟩
  | reset rest => exact ⟨rfl, le_rfl⟩
  | access own stores =>
    obtain ⟨hkept, -⟩ := agentAccesses_eq_next stores
    rw [hkept]
    exact own.keeps_platform

/-- Settles O5: the step on an access whose instruction is `i`. -/
theorem stepPerformsTheDecodedAccess : Obligations.StepPerformsTheDecodedAccess := by
  intro s a others rest i hinbox hdecode
  have hstep := step_access hinbox
  rw [hostAccess_of_instr (s := { s with inbox := rest, reply := none, concurrent := others }) exec hdecode] at hstep
  refine ⟨hstep, ?_⟩
  rintro rfl
  exact hstep

/-- Settles O7: the table word is the CTRL word; its access is a CTRL write, which by O18 performs the word's own instruction. -/
theorem placedCommandWordRunsNext : Obligations.PlacedCommandWordRunsNext := by
  intro s w hidle
  have htable : tableEncoding 32 w.toNat = some (.ctrl w) := by simp [tableEncoding]
  refine ⟨?_, ?_⟩
  · rw [decodeTableWord, htable]
    simp only [decodeBytes_encodingBytes, decode]
  · have hplaced : (s.withFetchWord 32 w.toNat).inbox = .access (busAccess s.plat.regBase (.ctrl w)) [] :: s.inbox := by
      rw [State.withFetchWord, htable]
      rfl
    obtain ⟨-, hstep⟩ := stepPerformsTheDecodedAccess _ _ _ _ (.wrCtrl w) hplaced (by
      rw [State.withFetchWord, htable]
      exact decodeBus_busAccess_ctrl s.plat.regBase w)
    have htaken : { s.withFetchWord 32 w.toNat with inbox := s.inbox, reply := none, concurrent := [] } =
        { s with reply := none } := by
      rw [State.withFetchWord, htable, ← hidle]
      rfl
    obtain ⟨-, hctrl, -⟩ := controlWritePerformsItsCommand w { s with reply := none }
    rw [hstep rfl, htaken, hctrl]

/-- Settles O47: the three cases of a store of one byte. -/
theorem storesBetweenAccessesAreVisible : Obligations.StoresBetweenAccessesAreVisible := by
  intro s a v rest hinbox
  rw [step_store hinbox]
  refine ⟨fun hwin hdev => ⟨_, agentStore_of_ordinary hwin hdev, Memory.read_write_same _ _ _, fun b hb => ?_, rfl, rfl⟩,
    fun hwin => agentStore_of_window hwin, fun hwin hdev => agentStore_of_device hwin hdev⟩
  refine Memory.read_write_other _ _ ?_
  rintro rfl
  exact hb ⟨le_rfl, Nat.lt_succ_self _⟩

/-- Settles O52: a list that goes on holds no access of the window, and one that begins with such an access is refused there. -/
theorem agentByteAccessesOfTheWindowAreRefused : Obligations.AgentByteAccessesOfTheWindowAreRefused := by
  intro s a others rest b hwin hinbox
  rw [step_access hinbox]
  refine ⟨fun hmem t h => ?_, fun more i u hothers hdecode hexec => ?_⟩
  · obtain ⟨u, hown, hstores⟩ := andThen_eq_next.mp h
    obtain ⟨hplat, -⟩ := (AccessEffect.of_hostAccess_exec hown).keeps_platform
    obtain ⟨hallowed, -⟩ := agentAccesses_eq_next_iff.mp hstores
    obtain ⟨e, he, haddress⟩ : ∃ e ∈ others, e.address = b.toNat := by
      obtain hread | ⟨v, hwrite⟩ := hmem
      · exact ⟨_, hread, rfl⟩
      · exact ⟨_, hwrite, rfl⟩
    refine (hallowed e he).not_within_window ?_
    rw [haddress]
    exact hplat ▸ hwin
  · obtain ⟨hplat, -⟩ := exec_keeps_platform hexec
    rw [hostAccess_of_instr (s := { s with inbox := rest, reply := none, concurrent := others }) exec hdecode, hexec,
      andThen_next]
    obtain rfl | ⟨v, rfl⟩ := hothers
    · exact agentAccesses_of_window_head (e := .read b) more (hplat ▸ hwin)
    · exact agentAccesses_of_window_head (e := .write b v) more (hplat ▸ hwin)

end Sys2Proof.Machine
end

section
/-! PROOFS. Which bus accesses the block takes, refuses and lets go by (40_register_access.md R110), and O6. -/

namespace Sys2Proof.Machine

open Sys2Proof.Safety

/-! ## Offsets and widths -/

theorem width_bytes_pos (u : Width) : 0 < u.bytes := by
  cases u <;> decide

/-- The slots lie at the multiples of 4 (R81). -/
theorem slotAt_isSome_iff (off : BitVec 5) : (slotAt off).isSome = true ↔ off.toNat % 4 = 0 := by
  revert off
  decide

theorem decodeMmio_of_aligned {a : Access} (hwidth : a.width = .w32) (halign : a.off.toNat % 4 = 0) :
    ∃ k, decodeMmio a = .ok (slotInstr a.dir a.data k) := by
  obtain ⟨k, hk⟩ := Option.isSome_iff_exists.mp ((slotAt_isSome_iff a.off).mpr halign)
  exact ⟨k, decodeMmio_eq_ok.mpr ⟨k, hwidth, slotAt_eq_some hk, rfl⟩⟩

/-- An access that is not a whole aligned word does not decode, and the one error of the format is its size. -/
theorem decodeMmio_of_unaligned {a : Access} (h : a.width ≠ .w32 ∨ a.off.toNat % 4 ≠ 0) :
    decodeMmio a = .error .accessSize := by
  cases hdecode : decodeMmio a with
  | ok i =>
    obtain ⟨k, hwidth, hoff, -⟩ := decodeMmio_eq_ok.mp hdecode
    rw [hoff] at h
    exact absurd (Laws.slot_offset_aligned k) (h.resolve_left (not_not_intro hwidth))
  | error e =>
    cases e with
    | accessSize => rfl
    | byteCount =>
      unfold decodeMmio at hdecode
      split at hdecode
      · split at hdecode <;> cases hdecode
      · cases hdecode

/-! ## The bus -/

section
variable {base : Nat} {b : BusAccess}

theorem decodeBus_of_outside (h : b.addr + b.width.bytes ≤ base ∨ base + Config.windowSize ≤ b.addr) :
    decodeBus base b = .notOurs :=
  if_pos h

theorem decodeBus_of_below (hlo : b.addr < base) (hhi : base < b.addr + b.width.bytes) :
    decodeBus base b = .rejected .accessSize := by
  rw [decodeBus, if_neg (by omega), if_pos hlo]

/-- The access at its offset in the window. -/
def windowAccess (base : Nat) (b : BusAccess) : Access :=
  { dir := b.dir, off := BitVec.ofNat 5 (b.addr - base), width := b.width, data := b.data }

variable (hlo : base ≤ b.addr) (hhi : b.addr < base + Config.windowSize)
include hlo hhi

theorem windowAccess_off_toNat : (windowAccess base b).off.toNat = b.addr - base := by
  rw [windowAccess, BitVec.toNat_ofNat]
  unfold Config.windowSize at hhi
  omega

theorem decodeBus_of_ok {i : Instr} (h : decodeMmio (windowAccess base b) = .ok i) : decodeBus base b = .instr i := by
  have hpos := width_bytes_pos b.width
  unfold windowAccess at h
  simp only [decodeBus, h, if_neg (show ¬ (b.addr + b.width.bytes ≤ base ∨ base + Config.windowSize ≤ b.addr) by omega),
    if_neg (Nat.not_lt.mpr hlo)]

theorem decodeBus_of_error {e : DecodeError} (h : decodeMmio (windowAccess base b) = .error e) :
    decodeBus base b = .rejected e := by
  have hpos := width_bytes_pos b.width
  unfold windowAccess at h
  simp only [decodeBus, h, if_neg (show ¬ (b.addr + b.width.bytes ≤ base ∨ base + Config.windowSize ≤ b.addr) by omega),
    if_neg (Nat.not_lt.mpr hlo)]

end

/-- What the bus decodes is an access of a slot. -/
theorem decodeBus_eq_instr {base : Nat} {b : BusAccess} {i : Instr} (h : decodeBus base b = .instr i) :
    ∃ k, i = slotInstr b.dir b.data k := by
  unfold decodeBus at h
  split at h
  · cases h
  · split at h
    · cases h
    · split at h
      · rename_i hdecode
        cases h
        obtain ⟨k, -, -, hi⟩ := decodeMmio_eq_ok.mp hdecode
        exact ⟨k, hi⟩
      · cases h

/-! ## The statement -/

/-- Settles O6: an access is outside, below and reaching in, or at an offset of the window, where it decodes as a register access
does. -/
theorem accessesAreWholeAlignedWordsOfTheWindow : Obligations.AccessesAreWholeAlignedWordsOfTheWindow := by
  intro s a others rest hinbox taken
  rw [step_access hinbox]
  have hrejected {e : DecodeError} (h : decodeBus s.plat.regBase a = .rejected e) :
      hostAccess exec a { s with inbox := rest, reply := none, concurrent := others } = .refused .accessSize :=
    hostAccess_of_rejected (s := { s with inbox := rest, reply := none, concurrent := others }) exec h
  refine ⟨fun hout => ?_, fun hlo hhi => ?_, fun hlo hhi hunaligned => ?_, fun hlo hhi hwidth halign => ?_⟩
  · have hours := hostAccess_of_notOurs (s := { s with inbox := rest, reply := none, concurrent := others }) exec
      (decodeBus_of_outside hout)
    rw [hours, andThen_next]
    refine ⟨rfl, ?_⟩
    rintro rfl
    rfl
  · rw [hrejected (decodeBus_of_below hlo hhi), andThen_refused]
  · rw [hrejected (decodeBus_of_error hlo hhi (decodeMmio_of_unaligned ?_)), andThen_refused]
    rw [windowAccess_off_toNat hlo hhi]
    exact hunaligned
  · obtain ⟨k, hk⟩ := decodeMmio_of_aligned (a := windowAccess s.plat.regBase a) hwidth
      (by rw [windowAccess_off_toNat hlo hhi]; exact halign)
    exact ⟨_, decodeBus_of_ok hlo hhi hk, wellFormed_slotInstr _ _ _⟩

end Sys2Proof.Machine
end

section
/-! PROOFS. A command that repeats, that runs on another memory or whose accesses come in another order, and what it reports of
refused accesses (20_memory.md R54, 60_exceptions.md R228, 10_state.md R20, R33). O38, O41 to O45. -/

namespace Sys2Proof.Machine

open Sys2Proof.Safety

/-! ## Sequences of accesses on two memories -/

/-- After the same accesses two memories read the same where they are written, or where the memories read the same before. -/
theorem read_applyWrites_congr {m k : Memory} {es : List EngineAccess} {a : Nat}
    (h : a ∈ writtenAddresses es ∨ Memory.read m a = Memory.read k a) :
    Memory.read (applyWrites m es) a = Memory.read (applyWrites k es) a := by
  induction es generalizing m k with
  | nil => exact h.resolve_left List.not_mem_nil
  | cons e es ih =>
    cases e with
    | read b => exact ih h
    | write b v =>
      refine ih ?_
      by_cases hab : a = b
      · right
        rw [hab, Memory.read_write_same, Memory.read_write_same]
      · rw [Memory.read_write_other _ _ hab, Memory.read_write_other _ _ hab]
        rw [writtenAddresses_write, List.mem_cons] at h
        exact h.imp_left fun hmem => hmem.resolve_left hab

section
variable {m : Memory} {es fs : List EngineAccess} (hwf : Memory.wf m = true)
  (hes : ∀ a ∈ writtenAddresses es, a < Config.addressLimit)
include hwf hes

/-- The same accesses again change nothing. -/
theorem applyWrites_idem : applyWrites (applyWrites m es) es = applyWrites m es := by
  have hwf' := wf_applyWrites es hwf hes
  refine Memory.ext_of_wf (wf_applyWrites es hwf' hes) hwf' fun a => ?_
  by_cases ha : a ∈ writtenAddresses es
  · exact read_applyWrites_congr (.inl ha)
  · exact read_applyWrites_outside _ es a ha

/-- Sequences that write no address in common commute. -/
theorem applyWrites_comm (hfs : ∀ a ∈ writtenAddresses fs, a < Config.addressLimit)
    (hdisjoint : ∀ a ∈ writtenAddresses es, a ∉ writtenAddresses fs) :
    applyWrites (applyWrites m es) fs = applyWrites (applyWrites m fs) es := by
  refine Memory.ext_of_wf (wf_applyWrites fs (wf_applyWrites es hwf hes) hfs)
    (wf_applyWrites es (wf_applyWrites fs hwf hfs) hes) fun a => ?_
  by_cases ha : a ∈ writtenAddresses es
  · rw [read_applyWrites_outside _ fs a (hdisjoint a ha)]
    exact read_applyWrites_congr (.inl ha)
  · rw [read_applyWrites_outside (applyWrites m fs) es a ha]
    exact read_applyWrites_congr (.inr (read_applyWrites_outside m es a ha))

/-- Where no address is written twice the order of the accesses does not matter (R54). -/
theorem applyWrites_perm (hnodup : (writtenAddresses es).Nodup) (hperm : fs.Perm es) :
    applyWrites m fs = applyWrites m es := by
  have hwritten : (writtenAddresses fs).Perm (writtenAddresses es) := hperm.filterMap _
  have hfs : ∀ a ∈ writtenAddresses fs, a < Config.addressLimit := fun a ha => hes a (hwritten.mem_iff.mp ha)
  refine Memory.ext_of_wf (wf_applyWrites fs hwf hfs) (wf_applyWrites es hwf hes) fun a => ?_
  by_cases ha : a ∈ writtenAddresses es
  · obtain ⟨v, hv⟩ := mem_writtenAddresses.mp ha
    rw [read_applyWrites_of_mem m es a v hnodup hv,
      read_applyWrites_of_mem m fs a v (hwritten.nodup_iff.mpr hnodup) (hperm.mem_iff.mpr hv)]
  · rw [read_applyWrites_outside _ es a ha, read_applyWrites_outside _ fs a (mt hwritten.mem_iff.mp ha)]

end

/-- A run that ends in success has written every byte that RESULT counts. -/
theorem CommandStart.mem_writtenAddresses_of_lt {s : State} {c : Command} {wr : Region} {run : CommandRun} {n k : Nat}
    (start : CommandStart s c wr run) (hargs : ArgsValid s) (hending : run.ending = .success n) (hk : k < n) :
    s.regs.dst.toNat + k ∈ writtenAddresses run.trace := by
  cases start with
  | encode =>
    have hn : encodedLength (source s) = n := CommandEnding.success.inj hending
    rw [← hn, encodedLength_eq_segmentForm_length] at hk
    exact (encodeRun_writesBuffer _ _ _).mem_addresses.mpr ⟨Nat.le_add_right _ _, Nat.add_lt_add_left hk _⟩
  | decode =>
    obtain ⟨w, -, hwrites, hsuccess, -⟩ :=
      (decodeRun_accesses s.regs.src.toNat s.regs.dst.toNat (source_ne_nil hargs)).writes
    obtain ⟨hn, -⟩ := hsuccess n hending
    rw [hwrites, List.mem_range'_1]
    omega

/-! ## A command that succeeds -/

/-- A command that accesses memory, from a state in which it succeeds with `n` bytes written. -/
structure CommandSuccess (s : State) (c : Command) (wr : Region) (run : CommandRun) (n : Nat) : Prop where
  start    : CommandStart s c wr run
  args     : ArgsValid s
  defined  : RegionsDefined (readArea s) wr s
  answered : busErrorKind s run.trace = none
  ending   : run.ending = .success n

/-- The state in which such a command ends. -/
def successState (s : State) (run : CommandRun) (n : Nat) : State :=
  finish .success (BitVec.ofNat 32 n) { s with mem := applyWrites s.mem run.trace }

theorem argsValid_congr {s u : State} (h : ArgsValid s) (hsrc : u.regs.src = s.regs.src)
    (hdst : u.regs.dst = s.regs.dst) (hlen : u.regs.len = s.regs.len) : ArgsValid u := by
  obtain ⟨hdst', hsrc', hne, hpos⟩ := h
  rw [← hdst] at hdst' hne
  rw [← hsrc] at hsrc' hne
  rw [← hlen] at hpos
  exact ⟨hdst', hsrc', hne, hpos⟩

theorem regionsDefined_congr {rr wr : Region} {s u : State} (h : RegionsDefined rr wr s) (hplat : u.plat = s.plat)
    (hconc : u.concurrent = s.concurrent) : RegionsDefined rr wr u := by
  obtain ⟨hread, hwrite, hreadOrd, hwriteOrd, hdisjoint, hundisturbed⟩ := h
  rw [← hplat] at hreadOrd hwriteOrd
  rw [← hconc] at hundisturbed
  exact ⟨hread, hwrite, hreadOrd, hwriteOrd, hdisjoint, hundisturbed⟩

namespace CommandSuccess

variable {s u t : State} {c : Command} {wr : Region} {run : CommandRun} {n : Nat} {i : Instr}

theorem exec_eq (h : CommandSuccess s c wr run n) (hi : instrCommand i = some c) :
    exec i s = .next (successState s run n) := by
  rw [h.start.exec_valid hi h.args, runCommand_of_defined run h.defined, h.answered, h.ending]
  rfl

theorem of_exec (start : CommandStart s c wr run) (hi : instrCommand i = some c) (h : exec i s = .next t)
    (hstatus : t.regs.status = 0x00000100#32) : ∃ n, CommandSuccess s c wr run n ∧ t = successState s run n := by
  cases start.outcome hi h with
  | invalid r => cases status_eq_success.mp hstatus
  | busError hargs hdef k => cases status_eq_success.mp hstatus
  | malformed hargs hdef r hending => cases status_eq_success.mp hstatus
  | success hargs hdef hbus hending => exact ⟨_, ⟨start, hargs, hdef, hbus, hending⟩, rfl⟩

/-- Success depends on the arguments, the source bytes, the platform and the other agents (R20). -/
theorem congr_state (h : CommandSuccess s c wr run n) (hsrc : u.regs.src = s.regs.src) (hdst : u.regs.dst = s.regs.dst)
    (hlen : u.regs.len = s.regs.len) (hplat : u.plat = s.plat) (hconc : u.concurrent = s.concurrent)
    (hsource : source u = source s) : CommandSuccess u c wr run n where
  start := h.start.congr_state hsrc hdst hlen hsource
  args := argsValid_congr h.args hsrc hdst hlen
  defined := by
    have harea : readArea u = readArea s := by rw [readArea, hsrc, hlen, readArea]
    rw [harea]
    exact regionsDefined_congr h.defined hplat hconc
  answered := by
    have hanswered := busErrorKind_eq_none.mp h.answered
    rw [← hplat] at hanswered
    exact busErrorKind_eq_none.mpr hanswered
  ending := h.ending

theorem within_written (h : CommandSuccess s c wr run n) {a : Nat} (ha : a ∈ writtenAddresses run.trace) : within wr a :=
  h.start.within_of_mem_writtenAddresses h.args ha

theorem written_lt (h : CommandSuccess s c wr run n) : ∀ a ∈ writtenAddresses run.trace, a < Config.addressLimit :=
  fun _ ha => Nat.lt_of_lt_of_le (h.within_written ha).2 h.defined.writeFits

/-- The source is as it was, since the regions do not meet (R61). -/
theorem source_successState (h : CommandSuccess s c wr run n) : source (successState s run n) = source s := by
  refine source_congr (s := s) (u := successState s run n) rfl rfl fun a ha => ?_
  exact read_applyWrites_outside _ _ a fun hwritten => h.defined.disjoint a ⟨ha, h.within_written hwritten⟩

end CommandSuccess

/-- A statement's two instructions, as one command with its description. -/
theorem exists_commandStart_of_instr {i : Instr} (hi : i = .encode ∨ i = .decode) (s : State) :
    ∃ c wr run, instrCommand i = some c ∧ CommandStart s c wr run := by
  obtain rfl | rfl := hi
  · exact ⟨_, _, _, rfl, .encode⟩
  · exact ⟨_, _, _, rfl, .decode⟩

/-! ## Refused accesses (R228) -/

/-- How a defined command ends, by whether a read of its run and whether a write of it is refused. -/
theorem CommandStart.exec_reports_refusals {s : State} {c : Command} {wr : Region} {run : CommandRun} {i : Instr}
    {badRead badWrite : Prop} (start : CommandStart s c wr run) (hi : instrCommand i = some c) (hargs : ArgsValid s)
    (hdef : RegionsDefined (readArea s) wr s)
    (hread : badRead ↔ ∃ a ∈ readAddresses run.trace, s.plat.busOk a .read = false)
    (hwrite : badWrite ↔ ∃ a ∈ writtenAddresses run.trace, s.plat.busOk a .write = false) :
    ∃ t, exec i s = .next t ∧
      (badRead ∧ ¬ badWrite → t.regs = endsWith s.regs 0x00000113#32 0#32) ∧
      (¬ badRead ∧ badWrite → t.regs = endsWith s.regs 0x00000123#32 0#32) ∧
      (badRead ∧ badWrite → t.regs = endsWith s.regs 0x00000113#32 0#32 ∨
        t.regs = endsWith s.regs 0x00000123#32 0#32) ∧
      (¬ badRead ∧ ¬ badWrite → statusErr t.regs.status ≠ 3#4) := by
  have hcases := busErrorKind_cases s run.trace
  simp only [← hread, ← hwrite] at hcases
  obtain ⟨t, h⟩ := start.completes hi (.inr hdef)
  refine ⟨t, h, ?_⟩
  rw [start.exec_valid hi hargs] at h
  obtain ⟨-, ⟨k, hk, rfl⟩ | ⟨hnone, r, -, rfl⟩ | ⟨hnone, n, -, rfl⟩⟩ := runCommand_eq_next h
  · rw [hk] at hcases
    cases k with
    | read =>
      have hregs : ({ s.regs with status := (Completion.busError .read).status, result := 0#32 } : Regs) =
          endsWith s.regs 0x00000113#32 0#32 := by rw [status_busRead, endsWith]
      refine ⟨fun _ => hregs, fun hbad => ?_, fun _ => .inl hregs, fun hbad => ?_⟩ <;> simp [hbad] at hcases
    | write =>
      have hregs : ({ s.regs with status := (Completion.busError .write).status, result := 0#32 } : Regs) =
          endsWith s.regs 0x00000123#32 0#32 := by rw [status_busWrite, endsWith]
      refine ⟨fun hbad => ?_, fun _ => hregs, fun _ => .inr hregs, fun hbad => ?_⟩ <;> simp [hbad] at hcases
  · rw [hnone] at hcases
    have herr : statusErr (Completion.malformedStream r).status ≠ 3#4 := by
      rw [(status_fields _).1]
      exact (by decide : (2#4 : BitVec 4) ≠ 3#4)
    refine ⟨fun hbad => ?_, fun hbad => ?_, fun hbad => ?_, fun _ => herr⟩ <;> simp [hbad] at hcases
  · rw [hnone] at hcases
    have herr : statusErr Completion.success.status ≠ 3#4 := by decide
    refine ⟨fun hbad => ?_, fun hbad => ?_, fun hbad => ?_, fun _ => herr⟩ <;> simp [hbad] at hcases

/-! ## The statements -/

/-- Settles O38: one block tiles the first source, that block and an empty one the second; both decode to the literals. -/
theorem decodeIsNotInjective : Obligations.DecodeIsNotInjective := by
  rintro s u a hlen hfree hs hu ⟨hargs, hdef, hbus⟩ ⟨hargs', hdef', hbus'⟩
  have hone : Tiles [⟨0xFF#8, a⟩] := ⟨(by decide : 0xFF#8 ≠ 0#8), hfree, hlen.le⟩
  have hempty : Tiles [⟨0x01#8, []⟩] := ⟨(by decide : 0x01#8 ≠ 0#8), List.not_mem_nil, le_rfl⟩
  have htwo : Tiles [⟨0xFF#8, a⟩, ⟨0x01#8, []⟩] := hempty.cons (by decide : 0xFF#8 ≠ 0#8) hfree hlen
  have hdecoded : decodedBlocks [⟨0xFF#8, a⟩, ⟨0x01#8, []⟩] = a := by simp [decodedBlocks]
  obtain ⟨t, hexec, hwrote⟩ := exec_decode_wrote hargs hdef hbus hone (by simp [hs, blockBytes])
  obtain ⟨v, hexec', hwrote'⟩ := exec_decode_wrote hargs' hdef' hbus' htwo (by simp [hu, blockBytes])
  rw [hdecoded] at hwrote'
  refine ⟨t, v, hexec, hexec', ?_, ?_, hwrote.holds, hwrote'.holds⟩
  · rw [hwrote.regs_eq, endsWith, decodedBlocks, hlen]
  · rw [hwrote'.regs_eq, endsWith, hlen]

/-- Settles O41: the run reads and writes every byte of the two regions. -/
theorem encodeReportsBusErrors : Obligations.EncodeReportsBusErrors := by
  intro s hargs hdef badRead badWrite _
  have hreads (a : Nat) : within (readArea s) a ↔
      a ∈ readAddresses (encodeRun s.regs.src.toNat s.regs.dst.toNat (source s)).trace := by
    rw [readAddresses_encodeRun, List.mem_range'_1, source_length]
    rfl
  have hwrites (a : Nat) : within (encodeArea s) a ↔
      a ∈ writtenAddresses (encodeRun s.regs.src.toNat s.regs.dst.toNat (source s)).trace := by
    rw [(encodeRun_writesBuffer _ _ _).mem_addresses, segmentForm_length]
    rfl
  obtain ⟨t, h, hr, hw, hrw, -⟩ := CommandStart.encode.exec_reports_refusals (i := .encode) (badRead := badRead)
    (badWrite := badWrite) rfl hargs hdef (exists_congr fun a => and_congr_left' (hreads a))
    (exists_congr fun a => and_congr_left' (hwrites a))
  exact ⟨t, h, hr, hw, hrw, CommandStart.encode.sameOutside rfl h⟩

/-- Settles O42: the run reads the source up to the first zero; on blocks that tile the source it writes what they decode to. -/
theorem decodeReportsBusErrors : Obligations.DecodeReportsBusErrors := by
  intro s hargs hdef written badRead badWrite
  have hreads : badRead ↔ ∃ a ∈ readAddresses (decodeRun s.regs.src.toNat s.regs.dst.toNat (source s)).trace,
      s.plat.busOk a .read = false := by
    rw [(decodeRun_accesses _ _ (source_ne_nil hargs)).reads]
    constructor
    · rintro ⟨i, hi, hbad⟩
      exact ⟨_, List.mem_range'_1.mpr ⟨Nat.le_add_right _ _, Nat.add_lt_add_left hi _⟩, hbad⟩
    · rintro ⟨a, ha, hbad⟩
      obtain ⟨hlo, hhi⟩ := List.mem_range'_1.mp ha
      obtain ⟨i, rfl⟩ := Nat.exists_eq_add_of_le hlo
      exact ⟨i, Nat.lt_of_add_lt_add_left hhi, hbad⟩
  obtain ⟨t, h, hr, hw, hrw, hnone⟩ := CommandStart.decode.exec_reports_refusals (i := .decode)
    (badWrite := badWrite) rfl hargs hdef hreads Iff.rfl
  refine ⟨t, h, CommandStart.decode.sameOutside rfl h, hr, hw, hrw, hnone,
    fun a ha => CommandStart.decode.within_of_mem_writtenAddresses hargs ha, fun bs htiles hbytes a => ?_⟩
  obtain ⟨hwrites, -⟩ := decodeRun_writesBuffer htiles s.regs.src.toNat s.regs.dst.toNat
  rw [hbytes] at hwrites
  rw [hwrites.mem_addresses, decodedBlocks_length htiles]
  rfl

/-- Settles O43: neither run writes an address twice. -/
theorem writeOrderIsNotObservable : Obligations.WriteOrderIsNotObservable := by
  intro m src dst xs es hwf hne
  refine ⟨fun hfits hperm => ?_, fun hfits hperm => ?_⟩
  · have hwrites := encodeRun_writesBuffer src dst xs
    rw [encodedLength_eq_segmentForm_length] at hfits
    exact applyWrites_perm hwf (fun a ha => Nat.lt_of_lt_of_le (hwrites.mem_addresses.mp ha).2 hfits)
      (hwrites.addresses.nodup_iff.mpr List.nodup_range') hperm
  · obtain ⟨w, -, hwrites, -⟩ := (decodeRun_accesses src dst hne).writes
    exact applyWrites_perm hwf
      (fun a ha => Nat.lt_of_lt_of_le (within_of_mem_writtenAddresses_decodeRun hne ha).2 hfits)
      (hwrites ▸ List.nodup_range') hperm

/-- Settles O44: the second run is the first one's, whose writes are already there. -/
theorem repeatedCommandLeavesTheSameState : Obligations.RepeatedCommandLeavesTheSameState := by
  intro s t i hi hwf h hstatus
  obtain ⟨c, wr, run, hc, start⟩ := exists_commandStart_of_instr hi s
  obtain ⟨n, hsuccess, rfl⟩ := CommandSuccess.of_exec start hc h hstatus
  have hagain : CommandSuccess (successState s run n) c wr run n :=
    hsuccess.congr_state rfl rfl rfl rfl rfl hsuccess.source_successState
  rw [hagain.exec_eq hc]
  have hmem : applyWrites (successState s run n).mem run.trace = (successState s run n).mem :=
    applyWrites_idem hwf hsuccess.written_lt
  rw [successState, hmem]
  rfl

/-- Settles O45: the other state's run is the same, and RESULT counts bytes that it writes. -/
theorem resultDependsOnArgumentsAndSourceOnly : Obligations.ResultDependsOnArgumentsAndSourceOnly := by
  intro s u t i hi hsrc hdst hlen hplat hconc hsource h hstatus
  obtain ⟨c, wr, run, hc, start⟩ := exists_commandStart_of_instr hi s
  obtain ⟨n, hsuccess, rfl⟩ := CommandSuccess.of_exec start hc h hstatus
  have hother := hsuccess.congr_state hsrc hdst hlen hplat hconc hsource
  refine ⟨successState u run n, hother.exec_eq hc, ?_, fun k hk => ?_⟩
  · simp only [successState, finish_regs, hsrc, hdst, hlen]
  · have hkn : k < n := Nat.lt_of_lt_of_le hk (by
      show (BitVec.ofNat 32 n).toNat ≤ n
      rw [BitVec.toNat_ofNat]
      exact Nat.mod_le _ _)
    exact read_applyWrites_congr (.inl (start.mem_writtenAddresses_of_lt hsuccess.args hsuccess.ending hkn))

end Sys2Proof.Machine
end

section
/-! PROOFS. Commands and resets while other agents access memory (20_memory.md R64, 70_reset_and_hazards.md R261). O46, O48,
O51. -/

namespace Sys2Proof.Machine

open Sys2Proof.Safety

/-! ## The stores of other agents -/

/-- A byte that no other agent stores keeps its value. -/
theorem read_agentStores_outside {m : Memory} {es : List AgentAccess} {a : Nat}
    (h : ∀ b v, AgentAccess.write b v ∈ es → b.toNat ≠ a) : Memory.read (agentStores m es) a = Memory.read m a := by
  induction es generalizing m with
  | nil => rfl
  | cons e es ih =>
    have hrest : ∀ b v, AgentAccess.write b v ∈ es → b.toNat ≠ a := fun b v hb => h b v (List.mem_cons_of_mem _ hb)
    cases e with
    | read b => exact ih hrest
    | write b v =>
      rw [agentStores, ih hrest, Memory.read_write_other _ _ (h b v List.mem_cons_self).symm]

/-- The same stores keep two memories alike where they are. -/
theorem read_agentStores_congr {m k : Memory} (es : List AgentAccess) {a : Nat} (h : Memory.read m a = Memory.read k a) :
    Memory.read (agentStores m es) a = Memory.read (agentStores k es) a := by
  induction es generalizing m k with
  | nil => exact h
  | cons e es ih =>
    cases e with
    | read b => exact ih h
    | write b v => exact ih (by rw [Memory.read_write, Memory.read_write, h])

/-- The premises of a statement on reads and on stores say that each access is allowed. -/
theorem agentAllowed_of {p : Platform} {others : List AgentAccess}
    (hreads : ∀ b, AgentAccess.read b ∈ others → ¬ within p.window b.toNat)
    (hwrites : ∀ b v, AgentAccess.write b v ∈ others →
      ¬ within p.window b.toNat ∧ ∀ d ∈ p.devices, ¬ within d b.toNat) : ∀ e ∈ others, AgentAllowed p e := by
  intro e he
  cases e with
  | read b => exact hreads b he
  | write b v => exact hwrites b v he

/-- Undisturbing agents store no byte of either region. -/
theorem read_agentStores_of_undisturbing {rr wr : Region} {m : Memory} {others : List AgentAccess} {a : Nat}
    (h : ∀ e ∈ others, Undisturbing rr wr e) (ha : within rr a ∨ within wr a) :
    Memory.read (agentStores m others) a = Memory.read m a := by
  refine read_agentStores_outside fun b v hb => ?_
  rintro rfl
  obtain ⟨hrr, hwr⟩ := h (.write b v) hb
  exact ha.elim hrr hwr

/-- A defined command runs with undisturbing agents active as it runs alone. -/
theorem runCommand_undisturbed {rr wr : Region} (run : CommandRun) {s : State} {others : List AgentAccess}
    (h : RegionsDefined rr wr { s with concurrent := others }) :
    ∃ u, runCommand rr wr run { s with concurrent := [] } = .next u ∧
      runCommand rr wr run { s with concurrent := others } = .next { u with concurrent := others } := by
  have halone : RegionsDefined rr wr { s with concurrent := [] } :=
    ⟨h.readFits, h.writeFits, h.readOrdinary, h.writeOrdinary, h.disjoint, by simp⟩
  have hbus : busErrorKind { s with concurrent := others } run.trace =
      busErrorKind { s with concurrent := [] } run.trace := rfl
  refine ⟨_, runCommand_of_defined run halone, ?_⟩
  rw [runCommand_of_defined run h, hbus]
  cases busErrorKind { s with concurrent := [] } run.trace with
  | some k => rfl
  | none => cases run.ending <;> rfl

/-! ## A reset during an access (R261) -/

/-- A command that makes no memory access has no regions (R57). -/
theorem commandRegions_eq_none {c : Command} {s : State} (h : (c ≠ .encode ∧ c ≠ .decode) ∨ ¬ ArgsValid s) :
    commandRegions c s = none := by
  have hinvalid (hc : ¬ (c ≠ .encode ∧ c ≠ .decode)) : ∃ r, checkArgs (operands s) = some r :=
    (args_cases s).resolve_left (h.resolve_left hc)
  cases c with
  | nop => rfl
  | badcmd r => rfl
  | encode =>
    obtain ⟨r, hr⟩ := hinvalid (by simp)
    simp only [commandRegions, hr]
  | decode =>
    obtain ⟨r, hr⟩ := hinvalid (by simp)
    simp only [commandRegions, hr]

theorem abandon_of_no_regions {i : Instr} {s : State} (h : ∀ c, instrCommand i = some c → commandRegions c s = none) :
    abandon i s = .next (blockReset s) := by
  have hnone : ((instrCommand i).bind fun c => commandRegions c s) = none := by
    cases hi : instrCommand i with
    | none => rfl
    | some c => exact h c hi
  simp only [abandon, hnone]

section
variable {s : State} {c : Command} {wr : Region} {run : CommandRun} {i : Instr} (start : CommandStart s c wr run)
  (hi : instrCommand i = some c) (hargs : ArgsValid s)
include start hi hargs

theorem abandon_of_defined (h : RegionsDefined (readArea s) wr s) : abandon i s = .next (blockReset (havoc wr s)) := by
  have hregions : ((instrCommand i).bind fun c => commandRegions c s) = some (readArea s, wr) := by
    rw [hi]
    exact start.commandRegions_eq hargs
  simp only [abandon, hregions, commandFault_eq_none.mpr h]

/-- An undefined command is undefined with a reset too. -/
theorem abandon_of_undefined (h : ¬ RegionsDefined (readArea s) wr s) :
    ∃ f, exec i s = .fault f ∧ abandon i s = .fault f := by
  have hregions : ((instrCommand i).bind fun c => commandRegions c s) = some (readArea s, wr) := by
    rw [hi]
    exact start.commandRegions_eq hargs
  obtain ⟨f, hf⟩ := Option.ne_none_iff_exists'.mp (mt commandFault_eq_none.mp h)
  refine ⟨f, ?_, by simp only [abandon, hregions, hf]⟩
  rw [start.exec_valid hi hargs]
  exact runCommand_of_fault run hf

end

/-- The one command write among the accesses of the slots is WR_CTRL. -/
theorem instrCommand_slotInstr {d : Dir} {v : Word} {k : Slot} {c : Command} (h : instrCommand (slotInstr d v k) = some c) :
    slotInstr d v k = .wrCtrl v ∧ decodeCommand v = c := by
  cases d with
  | read => cases k <;> cases h
  | write =>
    cases k with
    | ctrl => exact ⟨rfl, Option.some.inj h⟩
    | _ => cases h

/-! ## The statements -/

/-- Settles O46: what `abandon` answers, with the stores of the other agents after it; they leave the bytes outside the write
region as they do on the memory that the reset found. -/
theorem resetDuringAnAccessAbandonsIt : Obligations.ResetDuringAnAccessAbandonsIt := by
  intro s a others rest hinbox during cleared
  rw [step_resetDuring hinbox]
  refine ⟨fun w wr hdecode hcommand hargs => ?_, fun i hdecode hno => ?_, fun hdecode => ?_, fun e hdecode => ?_, ?_⟩
  · obtain ⟨run, start⟩ := exists_commandStart hcommand
    have hstart : CommandStart during (decodeCommand w) wr run := start.congr_state rfl rfl rfl rfl
    have hargs' : ArgsValid during := argsValid_congr hargs rfl rfl rfl
    rw [hostAccess_of_instr (s := during) abandon hdecode]
    refine ⟨fun hdef u hu => ?_, fun hundef => ?_⟩
    · obtain ⟨hallowed, rfl⟩ := agentAccesses_eq_next_iff.mp hu
      rw [abandon_of_defined hstart rfl hargs' hdef, andThen_next]
      refine ⟨_, agentAccesses_of_allowed hallowed, rfl, rfl, rfl, fun b hb => ?_⟩
      exact read_agentStores_congr others (havoc_sameOutside wr during b hb)
    · obtain ⟨f, hexec, habandon⟩ := abandon_of_undefined hstart (i := .wrCtrl w) rfl hargs' hundef
      exact ⟨f, hexec, by rw [habandon, andThen_fault]⟩
  · have hregions : ∀ c, instrCommand i = some c → commandRegions c during = none := by
      intro c hc
      obtain ⟨k, rfl⟩ := decodeBus_eq_instr hdecode
      obtain ⟨hi, rfl⟩ := instrCommand_slotInstr hc
      exact commandRegions_eq_none ((hno a.data hi).imp_right fun hargs h =>
        hargs (argsValid_congr (s := during) (u := s) h rfl rfl rfl))
    rw [hostAccess_of_instr (s := during) abandon hdecode, abandon_of_no_regions hregions, andThen_next]
    rfl
  · rw [hostAccess_of_notOurs (s := during) abandon hdecode, andThen_next]
    rfl
  · rw [hostAccess_of_rejected (s := during) abandon hdecode, andThen_refused]
  · rintro rfl
    rfl

/-- Settles O51: the command runs as it runs alone, and the stores after it are outside both regions. -/
theorem undisturbedCommandsEndAsIfAlone : Obligations.UndisturbedCommandsEndAsIfAlone := by
  intro s a others rest w wr hinbox hdecode hcommand hargs hdef hreads hwrites
  obtain ⟨run, start⟩ := exists_commandStart hcommand
  have hexec (os : List AgentAccess) :
      exec (.wrCtrl w) { s with inbox := rest, reply := none, concurrent := os } =
        runCommand (readArea s) wr run { s with inbox := rest, reply := none, concurrent := os } := by
    have hstart : CommandStart { s with inbox := rest, reply := none, concurrent := os } (decodeCommand w) wr run :=
      start.congr_state rfl rfl rfl rfl
    exact hstart.exec_valid rfl (argsValid_congr hargs rfl rfl rfl)
  obtain ⟨u, halone, hothers⟩ := runCommand_undisturbed run (s := { s with inbox := rest, reply := none })
    (others := others) (regionsDefined_congr hdef rfl rfl)
  have hu := (hexec []).trans halone
  obtain ⟨hplat, -⟩ := exec_keeps_platform hu
  obtain ⟨hstep, -⟩ := stepPerformsTheDecodedAccess s a others rest _ hinbox hdecode
  rw [hexec others, hothers, andThen_next,
    agentAccesses_of_allowed (s := { u with concurrent := [] }) (hplat ▸ agentAllowed_of hreads hwrites)] at hstep
  exact ⟨_, u, hstep, hu, rfl, rfl, fun k hk => read_agentStores_of_undisturbing hdef.undisturbed hk⟩

/-- Settles O48: the ENCODE ends as it does alone, by O51, and alone it writes the segment form. -/
theorem undisturbingAgentsDoNotDisturbEncode : Obligations.UndisturbingAgentsDoNotDisturbEncode := by
  intro s a others rest w hinbox hdecode hcommand hargs hdef hbus hreads hwrites
  obtain ⟨t, u, hstep, hu, hregs, -, hsame⟩ := undisturbedCommandsEndAsIfAlone s a others rest w (encodeArea s) hinbox
    hdecode (.inl ⟨hcommand, rfl⟩) hargs hdef hreads hwrites
  have hdef' : RegionsDefined (readArea s) (encodeArea s) { s with inbox := rest, reply := none, concurrent := [] } :=
    ⟨hdef.readFits, hdef.writeFits, hdef.readOrdinary, hdef.writeOrdinary, hdef.disjoint, by simp⟩
  obtain ⟨v, hv, hwrote⟩ := exec_encode_wrote (s := { s with inbox := rest, reply := none, concurrent := [] })
    (argsValid_congr hargs rfl rfl rfl) hdef' hbus
  have huv : u = v := by
    rw [exec_congr_command (instrCommand_wrCtrl hcommand) (show instrCommand .encode = some .encode from rfl), hv] at hu
    exact (Host.Outcome.next.inj hu).symm
  subst huv
  have hregs' := hregs.trans hwrote.regs_eq
  have harea : encodeArea s = ⟨s.regs.dst.toNat, (segmentForm (source s)).length⟩ := by
    rw [encodeArea, segmentForm_length]
  refine ⟨t, hstep, hregs', fun i hi => ?_, source_congr (s := s) ?_ ?_ fun b hb => ?_⟩
  · rw [hsame _ (.inr (harea ▸ ⟨Nat.le_add_right _ _, Nat.add_lt_add_left hi _⟩))]
    exact hwrote.holds i hi
  · rw [hregs', endsWith]
  · rw [hregs', endsWith]
  · rw [hsame b (.inl hb)]
    exact hwrote.outside b fun hw => hdef.disjoint b ⟨hb, harea ▸ hw⟩

end Sys2Proof.Machine
end

section
/-! PROOFS. Several blocks over one memory (60_exceptions.md R236). O49, O50, O53. -/

namespace Sys2Proof.Machine

open Sys2Proof.Safety

/-! ## A step of one block -/

theorem stepBlock_of_rejected {y : System} {k : Nat} {b : Block} (hb : y.blocks[k]? = some b)
    (h : y.siblingRejects k b = true) : y.stepBlock k = .refused .accessSize := by
  simp only [System.stepBlock, hb, if_pos h]

/-- A step of a block that goes on is its machine's step, with the result put in its place. -/
theorem stepBlock_eq_next {y z : System} {k : Nat} {b : Block} (hb : y.blocks[k]? = some b) :
    y.stepBlock k = .next z ↔ y.siblingRejects k b = false ∧
      ∃ t, step (y.view b) = .next t ∧ z = { blocks := y.blocks.set k (b.after t), mem := t.mem, draws := t.draws } := by
  cases hrejects : y.siblingRejects k b with
  | true => simp [stepBlock_of_rejected hb hrejects]
  | false =>
    simp only [System.stepBlock, hb, hrejects]
    cases step (y.view b) with
    | next t => simp [eq_comm]
    | fault f => simp
    | refused r => simp

/-- A block's next event is rejected where a sibling's window rejects it. -/
theorem siblingRejects_of_rejectedBy {y : System} {j k : Nat} {c b : Block} {e : HostEvent} {rest : List HostEvent}
    (hne : j ≠ k) (hc : y.blocks[j]? = some c) (hinbox : b.inbox = e :: rest) (h : e.rejectedBy c.plat = true) :
    y.siblingRejects k b = true := by
  simp only [System.siblingRejects, hinbox]
  exact List.any_eq_true.mpr ⟨c, List.mem_eraseIdx_iff_getElem?.mpr ⟨j, hne, hc⟩, h⟩

/-! ## What a block sees of the others -/

/-- Whether a sibling rejects an event is a matter of the platforms alone. -/
theorem siblingRejects_congr {y z : System} (h : z.blocks.map Block.plat = y.blocks.map Block.plat) (k : Nat) (b : Block) :
    z.siblingRejects k b = y.siblingRejects k b := by
  unfold System.siblingRejects
  cases b.inbox with
  | nil => rfl
  | cons e rest =>
    have hplats (x : System) : ((x.blocks.eraseIdx k).any fun c => e.rejectedBy c.plat) =
        ((x.blocks.map Block.plat).eraseIdx k).any fun p => e.rejectedBy p := by
      rw [List.eraseIdx_map, List.any_map]
      rfl
    exact (hplats z).trans (by rw [h, ← hplats y])

/-- A block sees the platforms of the others, the shared memory and the shared count. -/
theorem view_congr {y z : System} (h : z.blocks.map Block.plat = y.blocks.map Block.plat) (b : Block) :
    z.view b = { y.view b with mem := z.mem, draws := z.draws } := by
  have hwindows (x : System) : (x.blocks.map fun c => c.plat.window) = (x.blocks.map Block.plat).map Platform.window := by
    rw [List.map_map]
    rfl
  unfold System.view
  rw [hwindows, hwindows, h]

/-! ## A block whose command succeeds -/

/-- The system after a successful command of block `k`: its registers, its queue and the shared memory. -/
def System.afterSuccess (y : System) (k : Nat) (b : Block) (rest : List HostEvent) (run : CommandRun) (n : Nat) :
    System where
  blocks := y.blocks.set k
    { regs := endsWith b.regs 0x00000100#32 (BitVec.ofNat 32 n), plat := b.plat, inbox := rest, reply := none }
  mem := applyWrites y.mem run.trace
  draws := y.draws

/-- The platforms are fixed. -/
theorem map_plat_afterSuccess {y : System} {k : Nat} {b : Block} (hb : y.blocks[k]? = some b) (rest : List HostEvent)
    (run : CommandRun) (n : Nat) : (y.afterSuccess k b rest run n).blocks.map Block.plat = y.blocks.map Block.plat := by
  obtain ⟨hk, rfl⟩ := List.getElem?_eq_some_iff.mp hb
  simp only [System.afterSuccess, List.map_set]
  rw [← List.getElem_map Block.plat (h := by simpa using hk), List.set_getElem_self]

/-- A block whose next event is a write of a command word that succeeds, with its write region, its run and its count. -/
structure BlockSuccess (y : System) (k : Nat) (b : Block) (w : Word) (rest : List HostEvent) (wr : Region)
    (run : CommandRun) (n : Nat) : Prop where
  block      : y.blocks[k]? = some b
  queue      : b.inbox = .access (busAccess b.plat.regBase (.ctrl w)) [] :: rest
  unrejected : y.siblingRejects k b = false
  success    : CommandSuccess (takeEvent (y.view b) rest) (decodeCommand w) wr run n

/-- The step of a block whose next event is a write of a command word is that command. -/
theorem step_view_command {y : System} {b : Block} {w : Word} {rest : List HostEvent}
    (h : b.inbox = .access (busAccess b.plat.regBase (.ctrl w)) [] :: rest) :
    step (y.view b) = andThen (exec (.wrCtrl w) (takeEvent (y.view b) rest)) fun t => .next { t with concurrent := [] } := by
  obtain ⟨-, hstep⟩ := stepPerformsTheDecodedAccess (y.view b) _ [] rest (.wrCtrl w) h
    (decodeBus_busAccess_ctrl b.plat.regBase w)
  exact hstep rfl

/-- The command that has these regions (R57). -/
theorem commandStart_of_commandRegions {c : Command} {s : State} {rr wr : Region}
    (h : commandRegions c s = some (rr, wr)) : rr = readArea s ∧ ∃ run, CommandStart s c wr run := by
  by_cases hc : (c ≠ .encode ∧ c ≠ .decode) ∨ ¬ ArgsValid s
  · rw [commandRegions_eq_none hc] at h
    cases h
  · rw [not_or, not_not] at hc
    obtain ⟨hcommand, hargs⟩ := hc
    obtain ⟨wr', run, start⟩ : ∃ wr run, CommandStart s c wr run := by
      cases c with
      | encode => exact ⟨_, _, .encode⟩
      | decode => exact ⟨_, _, .decode⟩
      | nop => simp at hcommand
      | badcmd r => simp at hcommand
    rw [start.commandRegions_eq hargs] at h
    cases h
    exact ⟨rfl, run, start⟩

namespace BlockSuccess

variable {y : System} {j k : Nat} {b c : Block} {w v : Word} {rest more : List HostEvent} {wr wr' : Region}
  {run run' : CommandRun} {n n' : Nat}

theorem stepBlock_eq (h : BlockSuccess y k b w rest wr run n) :
    y.stepBlock k = .next (y.afterSuccess k b rest run n) := by
  refine (stepBlock_eq_next h.block).mpr ⟨h.unrejected, successState (takeEvent (y.view b) rest) run n, ?_, ?_⟩
  · rw [step_view_command h.queue, h.success.exec_eq rfl]
    rfl
  · rw [System.afterSuccess, successState, finish, status_success]
    rfl

/-- A step that leaves success in STATUS is such a one. -/
theorem of_stepBlock {rr : Region} {z : System} (hb : y.blocks[k]? = some b)
    (hqueue : b.inbox = .access (busAccess b.plat.regBase (.ctrl w)) [] :: rest)
    (hregions : commandRegions (decodeCommand w) (y.view b) = some (rr, wr)) (h : y.stepBlock k = .next z)
    (hstatus : ∀ c, z.blocks[k]? = some c → c.regs.status = 0x00000100#32) :
    rr = readArea (y.view b) ∧ ∃ run n, BlockSuccess y k b w rest wr run n := by
  obtain ⟨hrr, run, start⟩ := commandStart_of_commandRegions hregions
  have hstart : CommandStart (takeEvent (y.view b) rest) (decodeCommand w) wr run := start.congr_state rfl rfl rfl rfl
  obtain ⟨hunrejected, t, hstep, rfl⟩ := (stepBlock_eq_next hb).mp h
  rw [step_view_command hqueue] at hstep
  obtain ⟨u, hexec, hu⟩ := andThen_eq_next.mp hstep
  obtain ⟨hk, -⟩ := List.getElem?_eq_some_iff.mp hb
  have hsuccess : t.regs.status = 0x00000100#32 := hstatus (b.after t) (List.getElem?_set_self hk)
  cases hu
  obtain ⟨n, hsuccess, -⟩ := CommandSuccess.of_exec hstart rfl hexec hsuccess
  exact ⟨hrr, run, n, hb, hqueue, hunrejected, hsuccess⟩

/-- It is still such a block after a successful command of another that writes none of its source. -/
theorem after_other (h : BlockSuccess y k b w rest wr run n) (hother : BlockSuccess y j c v more wr' run' n') (hne : j ≠ k)
    (hapart : ∀ a, ¬ (within wr' a ∧ within (readArea (y.view b)) a)) :
    BlockSuccess (y.afterSuccess j c more run' n') k b w rest wr run n := by
  have hplats := map_plat_afterSuccess hother.block more run' n'
  refine ⟨?_, h.queue, (siblingRejects_congr hplats k b).trans h.unrejected, ?_⟩
  · exact (List.getElem?_set_ne hne).trans h.block
  · rw [view_congr hplats b]
    refine h.success.congr_state rfl rfl rfl rfl rfl (source_congr rfl rfl fun a ha => ?_)
    exact read_applyWrites_outside _ _ a fun hwritten => hapart a ⟨hother.success.within_written hwritten, ha⟩

end BlockSuccess

/-- Two successes on regions that do not meet leave one system in either order. -/
theorem afterSuccess_comm {y : System} {j k : Nat} {b c : Block} {w v : Word} {rest more : List HostEvent}
    {wr wr' : Region} {run run' : CommandRun} {n n' : Nat} (h : BlockSuccess y k b w rest wr run n)
    (hother : BlockSuccess y j c v more wr' run' n') (hne : j ≠ k) (hwf : Memory.wf y.mem = true)
    (hapart : ∀ a, ¬ (within wr' a ∧ within wr a)) :
    (y.afterSuccess j c more run' n').afterSuccess k b rest run n =
      (y.afterSuccess k b rest run n).afterSuccess j c more run' n' := by
  have hmem : applyWrites (applyWrites y.mem run'.trace) run.trace = applyWrites (applyWrites y.mem run.trace) run'.trace :=
    applyWrites_comm hwf hother.success.written_lt h.success.written_lt fun a ha ha' =>
      hapart a ⟨hother.success.within_written ha, h.success.within_written ha'⟩
  simp only [System.afterSuccess, hmem, List.set_comm _ _ hne]

/-! ## The statements -/

/-- Settles O49: a step puts its own block in its place, or there is no such block. -/
theorem blocksShareOnlyMemory : Obligations.BlocksShareOnlyMemory := by
  intro y z k h
  cases hb : y.blocks[k]? with
  | none =>
    simp only [System.stepBlock, hb] at h
    cases h
    exact ⟨rfl, fun _ _ => rfl⟩
  | some b =>
    obtain ⟨-, t, -, rfl⟩ := (stepBlock_eq_next hb).mp h
    exact ⟨List.length_set, fun j hj => List.getElem?_set_ne hj.symm⟩

/-- Settles O53: each of the events is one that the sibling's window rejects. -/
theorem accessesOfASiblingWindowAreRefused : Obligations.AccessesOfASiblingWindowAreRefused := by
  intro y j k c b e rest hne hc hb hinbox
  have hrefused (h : e.rejectedBy c.plat = true) : y.stepBlock k = .refused .accessSize :=
    stepBlock_of_rejected hb (siblingRejects_of_rejectedBy hne hc hinbox h)
  refine ⟨fun a others he hbad => hrefused ?_, fun x v he hwin => hrefused ?_⟩
  · have hany : (BusAccess.rejectedBy a c.plat || others.any fun o => c.plat.window.contains o.address) = true := by
      rw [Bool.or_eq_true]
      obtain ⟨r, hr⟩ | ⟨x, hx, hwin⟩ := hbad
      · exact .inl (by simp only [BusAccess.rejectedBy, hr])
      · refine .inr (List.any_eq_true.mpr ?_)
        obtain hread | ⟨v, hwrite⟩ := hx
        · exact ⟨_, hread, Region.contains_iff.mpr hwin⟩
        · exact ⟨_, hwrite, Region.contains_iff.mpr hwin⟩
    obtain rfl | rfl := he <;> exact hany
  · subst he
    exact Region.contains_iff.mpr hwin

/-- Settles O50: each command succeeds after the other as it does alone, and the two results commute. -/
theorem disjointCommandsOfTwoBlocksCommute : Obligations.DisjointCommandsOfTwoBlocksCommute := by
  intro y yj yk j k bj bk wj wk restj restk rrj wrj rrk wrk hne hwf hbj hbk hqueuej hqueuek hregionsj hregionsk hapart
    hapart' hstepj hstepk hstatusj hstatusk
  obtain ⟨rfl, runj, nj, hj⟩ := BlockSuccess.of_stepBlock hbj hqueuej hregionsj hstepj hstatusj
  obtain ⟨rfl, runk, nk, hk⟩ := BlockSuccess.of_stepBlock hbk hqueuek hregionsk hstepk hstatusk
  rw [hj.stepBlock_eq] at hstepj
  rw [hk.stepBlock_eq] at hstepk
  cases hstepj
  cases hstepk
  have hk' := hk.after_other hj hne fun a ⟨hw, hr⟩ => hapart a ⟨hw, .inl hr⟩
  have hj' := hj.after_other hk hne.symm hapart'
  refine ⟨_, hk'.stepBlock_eq, hj'.stepBlock_eq.trans ?_⟩
  rw [afterSuccess_comm hk hj hne hwf fun a ⟨hw, hw'⟩ => hapart a ⟨hw, .inr hw'⟩]

end Sys2Proof.Machine
end
